-- ==== Sys2Proof/Word.lean ====
section
/-! DEFINITION. The word types: 32-bit words (rule R8: `XLEN`, `ILEN`), 8-bit bytes (rule R34), and the
indices the instruction word's 5-bit fields name (rules R24, R75). -/

namespace Sys2Proof

/-- A register, the pc, an instruction word, an address while it is computed: 32 bits (rules R8, R10). -/
abbrev Word := BitVec 32

/-- A byte of the Memory: 8 bits (rule R34). -/
abbrev Byte := BitVec 8

/-- A general register's index, 0 to 31 (rule R24). -/
abbrev RegIdx := Fin 32

/-- A shift amount, 0 to 31 (rules R75, R121). -/
abbrev Shamt := Fin 32

end Sys2Proof
end

