-- ==== Sys2Proof/Config.lean ====
section
/-! DEFINITION. The parameters of rule R8: the two the spec leaves OPEN (`X0_POLICY`, `MEM_SIZE`) as a
configuration, and the fixed ones as constants. The spec leaves no value free (rule R202), so there is no
uninterpreted constant here. -/

namespace Sys2Proof

/-- `X0_POLICY` (rules R8, R21, R22, R23): whether register 0 is a register like the others or reads as zero. -/
inductive X0Policy where
  | ordinary
  | hardwired
  deriving DecidableEq, Repr

/-- The OPEN parameters (rule R8), fixed when the core is built (rules R40, R190). -/
structure Config where
  /-- `MEM_SIZE`, the number of bytes of the Memory (rules R8, R40). -/
  memSize : Nat
  /-- `X0_POLICY` (rule R23). -/
  x0Policy : X0Policy
  deriving DecidableEq, Repr

/-- `0 <= MEM_SIZE <= 2^31` (rules R8, R40). -/
abbrev Config.wf (c : Config) : Prop := c.memSize ≤ 2 ^ 31

/-- The configuration of `State.reset`. DESIGN CHOICE, unsafe (log entry 2): the spec leaves both parameters
OPEN, and these are the defaults of its own test vectors (95_test_vectors.md, section 1). -/
def Config.default : Config := ⟨64, .ordinary⟩

/-- `INSTR_WIDTH` in bytes (rule R8). -/
def instrWidth : Word := 4

/-- `RESET_PC` (rules R8, R36, R190). -/
def resetPc : Word := 0

end Sys2Proof
end

