-- ==== Sys2Proof/Syntax.lean ====
section
/-! DEFINITION. The instruction set as data: the six format records of rules R62 to R68, the 28 instructions of
rule R80 with their assembled operands, their mnemonics and formats. -/

namespace Sys2Proof

/-- The six encoding shapes (rules R18, R62). -/
inductive Format where
  | r | i | s | b | u | j
  deriving DecidableEq, Repr

/-- The record of the R format (rule R63). -/
structure RFmt where
  opcode : BitVec 7
  rd : BitVec 5
  funct3 : BitVec 3
  rs1 : BitVec 5
  rs2 : BitVec 5
  funct7 : BitVec 7
  deriving DecidableEq, Repr

/-- The record of the I format (rule R64), with the immediate sign-extended to 32 bits. The shift-immediate
instructions read the same 12 bits a second way, as `shamt` and `funct7`. -/
structure IFmt where
  opcode : BitVec 7
  rd : BitVec 5
  funct3 : BitVec 3
  rs1 : BitVec 5
  imm : Word
  shamt : BitVec 5
  funct7 : BitVec 7
  deriving DecidableEq, Repr

/-- The record of the S format (rule R65), with its two immediate fragments. -/
structure SFmt where
  opcode : BitVec 7
  funct3 : BitVec 3
  rs1 : BitVec 5
  rs2 : BitVec 5
  immLo : BitVec 5
  immHi : BitVec 7
  deriving DecidableEq, Repr

/-- The record of the B format (rule R66), with its four immediate fragments named by their place in the word. -/
structure BFmt where
  opcode : BitVec 7
  funct3 : BitVec 3
  rs1 : BitVec 5
  rs2 : BitVec 5
  f7 : BitVec 1
  f11_8 : BitVec 4
  f30_25 : BitVec 6
  f31 : BitVec 1
  deriving DecidableEq, Repr

/-- The record of the U format (rule R67). -/
structure UFmt where
  opcode : BitVec 7
  rd : BitVec 5
  imm : Word
  deriving DecidableEq, Repr

/-- The record of the J format (rule R68), with its four immediate fragments. -/
structure JFmt where
  opcode : BitVec 7
  rd : BitVec 5
  imm0 : BitVec 8
  imm1 : BitVec 1
  imm2 : BitVec 10
  f31 : BitVec 1
  deriving DecidableEq, Repr

/-- The nine opcodes the core has (rule R77). -/
inductive Opcode where
  | lui | auipc | jal | jalr | branch | load | store | opImm | op
  deriving DecidableEq, Repr

/-- Why `Decode` refuses a word (rules R82, R166). -/
inductive DecodeReason where
  /-- `w[1:0] != 11` (rule R86). -/
  | compressedClass
  /-- `w[6:0]` is none of the nine opcodes (rule R87). -/
  | unknownOpcode
  /-- the function fields select nothing under a known opcode (rule R88). -/
  | unknownFunction
  deriving DecidableEq, Repr

/-- The mnemonics of rule R80. -/
inductive Mnemonic where
  | lui | auipc | jal | jalr
  | beq | bne | blt | bge | bltu | bgeu
  | lw | sw
  | addi | slti | sltiu | slli | srli | srai
  | add | sub | sll | slt | sltu | xor | srl | sra | or | and
  deriving DecidableEq, Repr

/-- A decoded instruction: one constructor per row of rule R80. An immediate is the assembled 32-bit value of
rules R70 to R74 (log entry 12), a shift amount that of rule R75. Operands stand in the order of rule R89,
`sw` data register first included. -/
inductive Instr where
  | lui (rd : RegIdx) (imm : Word)
  | auipc (rd : RegIdx) (imm : Word)
  | jal (rd : RegIdx) (imm : Word)
  | jalr (rd rs1 : RegIdx) (imm : Word)
  | beq (rs1 rs2 : RegIdx) (imm : Word)
  | bne (rs1 rs2 : RegIdx) (imm : Word)
  | blt (rs1 rs2 : RegIdx) (imm : Word)
  | bge (rs1 rs2 : RegIdx) (imm : Word)
  | bltu (rs1 rs2 : RegIdx) (imm : Word)
  | bgeu (rs1 rs2 : RegIdx) (imm : Word)
  | lw (rd rs1 : RegIdx) (imm : Word)
  | sw (rs2 rs1 : RegIdx) (imm : Word)
  | addi (rd rs1 : RegIdx) (imm : Word)
  | slti (rd rs1 : RegIdx) (imm : Word)
  | sltiu (rd rs1 : RegIdx) (imm : Word)
  | slli (rd rs1 : RegIdx) (shamt : Shamt)
  | srli (rd rs1 : RegIdx) (shamt : Shamt)
  | srai (rd rs1 : RegIdx) (shamt : Shamt)
  | add (rd rs1 rs2 : RegIdx)
  | sub (rd rs1 rs2 : RegIdx)
  | sll (rd rs1 rs2 : RegIdx)
  | slt (rd rs1 rs2 : RegIdx)
  | sltu (rd rs1 rs2 : RegIdx)
  | xor (rd rs1 rs2 : RegIdx)
  | srl (rd rs1 rs2 : RegIdx)
  | sra (rd rs1 rs2 : RegIdx)
  | or (rd rs1 rs2 : RegIdx)
  | and (rd rs1 rs2 : RegIdx)
  deriving DecidableEq, Repr

/-- The row of rule R80 an instruction belongs to. -/
def Instr.mnemonic : Instr → Mnemonic
  | .lui .. => .lui
  | .auipc .. => .auipc
  | .jal .. => .jal
  | .jalr .. => .jalr
  | .beq .. => .beq
  | .bne .. => .bne
  | .blt .. => .blt
  | .bge .. => .bge
  | .bltu .. => .bltu
  | .bgeu .. => .bgeu
  | .lw .. => .lw
  | .sw .. => .sw
  | .addi .. => .addi
  | .slti .. => .slti
  | .sltiu .. => .sltiu
  | .slli .. => .slli
  | .srli .. => .srli
  | .srai .. => .srai
  | .add .. => .add
  | .sub .. => .sub
  | .sll .. => .sll
  | .slt .. => .slt
  | .sltu .. => .sltu
  | .xor .. => .xor
  | .srl .. => .srl
  | .sra .. => .sra
  | .or .. => .or
  | .and .. => .and

/-- The format column of rule R80. -/
def Mnemonic.format : Mnemonic → Format
  | .lui | .auipc => .u
  | .jal => .j
  | .beq | .bne | .blt | .bge | .bltu | .bgeu => .b
  | .sw => .s
  | .jalr | .lw | .addi | .slti | .sltiu | .slli | .srli | .srai => .i
  | .add | .sub | .sll | .slt | .sltu | .xor | .srl | .sra | .or | .and => .r

/-- The `rd` field, in the formats that have it (rules R17, R26). -/
def Instr.rd? : Instr → Option RegIdx
  | .lui rd _ | .auipc rd _ | .jal rd _ | .jalr rd _ _ | .lw rd _ _ => some rd
  | .addi rd _ _ | .slti rd _ _ | .sltiu rd _ _ | .slli rd _ _ | .srli rd _ _ | .srai rd _ _ => some rd
  | .add rd _ _ | .sub rd _ _ | .sll rd _ _ | .slt rd _ _ | .sltu rd _ _ => some rd
  | .xor rd _ _ | .srl rd _ _ | .sra rd _ _ | .or rd _ _ | .and rd _ _ => some rd
  | .beq .. | .bne .. | .blt .. | .bge .. | .bltu .. | .bgeu .. | .sw .. => none

/-- The source registers an instruction's fields name, `rs1` before `rs2` (rules R17, R26). -/
def Instr.sources : Instr → List RegIdx
  | .lui .. | .auipc .. | .jal .. => []
  | .jalr _ rs1 _ | .lw _ rs1 _ => [rs1]
  | .addi _ rs1 _ | .slti _ rs1 _ | .sltiu _ rs1 _ | .slli _ rs1 _ | .srli _ rs1 _ | .srai _ rs1 _ => [rs1]
  | .beq rs1 rs2 _ | .bne rs1 rs2 _ | .blt rs1 rs2 _ | .bge rs1 rs2 _ | .bltu rs1 rs2 _ | .bgeu rs1 rs2 _ =>
    [rs1, rs2]
  | .sw rs2 rs1 _ => [rs1, rs2]
  | .add _ rs1 rs2 | .sub _ rs1 rs2 | .sll _ rs1 rs2 | .slt _ rs1 rs2 | .sltu _ rs1 rs2 => [rs1, rs2]
  | .xor _ rs1 rs2 | .srl _ rs1 rs2 | .sra _ rs1 rs2 | .or _ rs1 rs2 | .and _ rs1 rs2 => [rs1, rs2]

end Sys2Proof
end

