-- ==== Sys2Proof/WellFormed.lean ====
section
/-! DEFINITION. Well-formed operands (rule R81): which immediates the encoding of each instruction admits. Register
indices and shift amounts are well-formed by their types. -/

namespace Sys2Proof

/-- An I or S immediate: -2048 to 2047 (rules R70, R71, R81). -/
abbrev immWf12 (imm : Word) : Prop := -2048 ≤ imm.toInt ∧ imm.toInt ≤ 2047

/-- A B immediate: even, -4096 to 4094 (rules R72, R81). -/
abbrev immWfB (imm : Word) : Prop := -4096 ≤ imm.toInt ∧ imm.toInt ≤ 4094 ∧ imm.toInt % 2 = 0

/-- A U immediate: the low 12 bits are zero (rules R67, R73). -/
abbrev immWfU (imm : Word) : Prop := imm.toNat % 4096 = 0

/-- A J immediate: even, -1048576 to 1048574 (rules R74, R81). -/
abbrev immWfJ (imm : Word) : Prop := -1048576 ≤ imm.toInt ∧ imm.toInt ≤ 1048574 ∧ imm.toInt % 2 = 0

/-- The operand ranges of rule R81, per instruction. -/
def Instr.wf : Instr → Bool
  | .lui _ imm | .auipc _ imm => decide (immWfU imm)
  | .jal _ imm => decide (immWfJ imm)
  | .jalr _ _ imm | .lw _ _ imm | .addi _ _ imm | .slti _ _ imm | .sltiu _ _ imm => decide (immWf12 imm)
  | .sw _ _ imm => decide (immWf12 imm)
  | .beq _ _ imm | .bne _ _ imm | .blt _ _ imm | .bge _ _ imm | .bltu _ _ imm | .bgeu _ _ imm =>
    decide (immWfB imm)
  | .slli .. | .srli .. | .srai .. => true
  | .add .. | .sub .. | .sll .. | .slt .. | .sltu .. | .xor .. | .srl .. | .sra .. | .or .. | .and .. => true

end Sys2Proof
end

