-- ==== Sys2Proof/Decode.lean ====
section
/-! DEFINITION. The Bit-Field Extractor, the Immediate Assembler and the Instruction Decoder (rules R60 to R88), and
after them the encoder (rule R81). -/

namespace Sys2Proof

/-! The Bit-Field Extractor (rules R60, R11). -/

/-- `extractBits(word, lowBit, highBit)`, also written `w[hi:lo]` (rules R9, R60). -/
def extractBits (w : Word) (lo hi : Nat) : BitVec (hi - lo + 1) := w.extractLsb' lo (hi - lo + 1)

/-- `sext_n(v)` (rule R11). -/
def sext {n : Nat} (v : BitVec n) : Word := v.signExtend 32

/-! The six format decoders (rules R63 to R69): total on every word. -/

/-- Rule R63. -/
def decodeR (w : Word) : RFmt where
  opcode := extractBits w 0 6
  rd := extractBits w 7 11
  funct3 := extractBits w 12 14
  rs1 := extractBits w 15 19
  rs2 := extractBits w 20 24
  funct7 := extractBits w 25 31

/-- Rules R64, R70, R75. -/
def decodeI (w : Word) : IFmt where
  opcode := extractBits w 0 6
  rd := extractBits w 7 11
  funct3 := extractBits w 12 14
  rs1 := extractBits w 15 19
  imm := sext (extractBits w 20 31)
  shamt := extractBits w 20 24
  funct7 := extractBits w 25 31

/-- Rule R65. -/
def decodeS (w : Word) : SFmt where
  opcode := extractBits w 0 6
  funct3 := extractBits w 12 14
  rs1 := extractBits w 15 19
  rs2 := extractBits w 20 24
  immLo := extractBits w 7 11
  immHi := extractBits w 25 31

/-- Rule R66. -/
def decodeB (w : Word) : BFmt where
  opcode := extractBits w 0 6
  funct3 := extractBits w 12 14
  rs1 := extractBits w 15 19
  rs2 := extractBits w 20 24
  f7 := extractBits w 7 7
  f11_8 := extractBits w 8 11
  f30_25 := extractBits w 25 30
  f31 := extractBits w 31 31

/-- Rules R67, R73. -/
def decodeU (w : Word) : UFmt where
  opcode := extractBits w 0 6
  rd := extractBits w 7 11
  imm := (extractBits w 12 31 : BitVec 20) ++ 0#12

/-- Rule R68. -/
def decodeJ (w : Word) : JFmt where
  opcode := extractBits w 0 6
  rd := extractBits w 7 11
  imm0 := extractBits w 12 19
  imm1 := extractBits w 20 20
  imm2 := extractBits w 21 30
  f31 := extractBits w 31 31

/-! The Immediate Assembler (rules R70 to R76). -/

/-- `sext_12({imm_hi, imm_lo})` (rule R71). -/
def assembleS (r : SFmt) : Word := sext (r.immHi ++ r.immLo)

/-- `sext_13({f31, f7, f30_25, f11_8, 0})` (rule R72; 90_conflicts.md C1, C5). -/
def assembleB (r : BFmt) : Word := sext (r.f31 ++ r.f7 ++ r.f30_25 ++ r.f11_8 ++ 0#1)

/-- `sext_21({f31, imm0, imm1, imm2, 0})` (rule R74). -/
def assembleJ (r : JFmt) : Word := sext (r.f31 ++ r.imm0 ++ r.imm1 ++ r.imm2 ++ 0#1)

/-- `immI(w)` (rule R70). -/
def immI (w : Word) : Word := (decodeI w).imm

/-- `immS(w)` (rule R71). -/
def immS (w : Word) : Word := assembleS (decodeS w)

/-- `immB(w)` (rule R72). -/
def immB (w : Word) : Word := assembleB (decodeB w)

/-- `immU(w)` (rule R73). -/
def immU (w : Word) : Word := (decodeU w).imm

/-- `immJ(w)` (rule R74). -/
def immJ (w : Word) : Word := assembleJ (decodeJ w)

/-! The Instruction Decoder: format selection (rule R77), operation selection (rule R78), the whole (rule R79). -/

/-- The numbers of rule R77. -/
def Opcode.bits : Opcode → BitVec 7
  | .lui => 0b0110111
  | .auipc => 0b0010111
  | .jal => 0b1101111
  | .jalr => 0b1100111
  | .branch => 0b1100011
  | .load => 0b0000011
  | .store => 0b0100011
  | .opImm => 0b0010011
  | .op => 0b0110011

/-- The format column of rule R77. -/
def Opcode.format : Opcode → Format
  | .lui | .auipc => .u
  | .jal => .j
  | .jalr | .load | .opImm => .i
  | .branch => .b
  | .store => .s
  | .op => .r

/-- Step 2 of rule R79: the opcode of rule R77 that `w[6:0]` is, if any. -/
def lookupOpcode (b : BitVec 7) : Option Opcode :=
  if b = Opcode.lui.bits then some .lui
  else if b = Opcode.auipc.bits then some .auipc
  else if b = Opcode.jal.bits then some .jal
  else if b = Opcode.jalr.bits then some .jalr
  else if b = Opcode.branch.bits then some .branch
  else if b = Opcode.load.bits then some .load
  else if b = Opcode.store.bits then some .store
  else if b = Opcode.opImm.bits then some .opImm
  else if b = Opcode.op.bits then some .op
  else none

/-- The register a 5-bit field names (rule R24). -/
def regOf (b : BitVec 5) : RegIdx := b.toFin

/-- The amount a 5-bit shift field names (rule R75). -/
def shamtOf (b : BitVec 5) : Shamt := b.toFin

/-- JALR: `funct3 = 000` (rule R78). -/
def selectJalr (r : IFmt) : Option Instr :=
  if r.funct3 = 0b000 then some (.jalr (regOf r.rd) (regOf r.rs1) r.imm) else none

/-- BRANCH by `funct3` (rule R78). -/
def selectBranch (r : BFmt) : Option Instr :=
  if r.funct3 = 0b000 then some (.beq (regOf r.rs1) (regOf r.rs2) (assembleB r))
  else if r.funct3 = 0b001 then some (.bne (regOf r.rs1) (regOf r.rs2) (assembleB r))
  else if r.funct3 = 0b100 then some (.blt (regOf r.rs1) (regOf r.rs2) (assembleB r))
  else if r.funct3 = 0b101 then some (.bge (regOf r.rs1) (regOf r.rs2) (assembleB r))
  else if r.funct3 = 0b110 then some (.bltu (regOf r.rs1) (regOf r.rs2) (assembleB r))
  else if r.funct3 = 0b111 then some (.bgeu (regOf r.rs1) (regOf r.rs2) (assembleB r))
  else none

/-- LOAD: `funct3 = 010` (rules R78, R159). -/
def selectLoad (r : IFmt) : Option Instr :=
  if r.funct3 = 0b010 then some (.lw (regOf r.rd) (regOf r.rs1) r.imm) else none

/-- STORE: `funct3 = 010` (rules R78, R159). -/
def selectStore (r : SFmt) : Option Instr :=
  if r.funct3 = 0b010 then some (.sw (regOf r.rs2) (regOf r.rs1) (assembleS r)) else none

/-- OP-IMM by `funct3`, and for the shifts by `w[31:25]` as well (rules R78, R157). -/
def selectOpImm (r : IFmt) : Option Instr :=
  if r.funct3 = 0b000 then some (.addi (regOf r.rd) (regOf r.rs1) r.imm)
  else if r.funct3 = 0b010 then some (.slti (regOf r.rd) (regOf r.rs1) r.imm)
  else if r.funct3 = 0b011 then some (.sltiu (regOf r.rd) (regOf r.rs1) r.imm)
  else if r.funct3 = 0b001 ∧ r.funct7 = 0b0000000 then some (.slli (regOf r.rd) (regOf r.rs1) (shamtOf r.shamt))
  else if r.funct3 = 0b101 ∧ r.funct7 = 0b0000000 then some (.srli (regOf r.rd) (regOf r.rs1) (shamtOf r.shamt))
  else if r.funct3 = 0b101 ∧ r.funct7 = 0b0100000 then some (.srai (regOf r.rd) (regOf r.rs1) (shamtOf r.shamt))
  else none

/-- OP with `funct7 = 0000000`, by `funct3` (rule R78). -/
def selectOpBase (r : RFmt) : Option Instr :=
  if r.funct3 = 0b000 then some (.add (regOf r.rd) (regOf r.rs1) (regOf r.rs2))
  else if r.funct3 = 0b001 then some (.sll (regOf r.rd) (regOf r.rs1) (regOf r.rs2))
  else if r.funct3 = 0b010 then some (.slt (regOf r.rd) (regOf r.rs1) (regOf r.rs2))
  else if r.funct3 = 0b011 then some (.sltu (regOf r.rd) (regOf r.rs1) (regOf r.rs2))
  else if r.funct3 = 0b100 then some (.xor (regOf r.rd) (regOf r.rs1) (regOf r.rs2))
  else if r.funct3 = 0b101 then some (.srl (regOf r.rd) (regOf r.rs1) (regOf r.rs2))
  else if r.funct3 = 0b110 then some (.or (regOf r.rd) (regOf r.rs1) (regOf r.rs2))
  else some (.and (regOf r.rd) (regOf r.rs1) (regOf r.rs2))

/-- OP with `funct7 = 0100000`, by `funct3` (rule R78). -/
def selectOpAlt (r : RFmt) : Option Instr :=
  if r.funct3 = 0b000 then some (.sub (regOf r.rd) (regOf r.rs1) (regOf r.rs2))
  else if r.funct3 = 0b101 then some (.sra (regOf r.rd) (regOf r.rs1) (regOf r.rs2))
  else none

/-- OP by `funct7`, then `funct3` (rules R78, R158). -/
def selectOp (r : RFmt) : Option Instr :=
  if r.funct7 = 0b0000000 then selectOpBase r
  else if r.funct7 = 0b0100000 then selectOpAlt r
  else none

/-- Steps 3 and 4 of rule R79: the opcode's format decoder, then the function lookup. -/
def select (opc : Opcode) (w : Word) : Option Instr :=
  match opc with
  | .lui => some (.lui (regOf (decodeU w).rd) (decodeU w).imm)
  | .auipc => some (.auipc (regOf (decodeU w).rd) (decodeU w).imm)
  | .jal => some (.jal (regOf (decodeJ w).rd) (assembleJ (decodeJ w)))
  | .jalr => selectJalr (decodeI w)
  | .branch => selectBranch (decodeB w)
  | .load => selectLoad (decodeI w)
  | .store => selectStore (decodeS w)
  | .opImm => selectOpImm (decodeI w)
  | .op => selectOp (decodeR w)

/-- `Decode(w)` (rule R79): total, and every refusal has its reason (rules R82 to R88, R155 to R161). -/
def decode (w : Word) : Except DecodeReason Instr :=
  if extractBits w 0 1 ≠ 0b11 then .error .compressedClass
  else match lookupOpcode (extractBits w 0 6) with
    | none => .error .unknownOpcode
    | some opc =>
      match select opc w with
      | none => .error .unknownFunction
      | some i => .ok i

/-- The host's reading of a table word: one 32-bit word, `w`'s low `nbits` bits, the bits above them 0. Nothing is
longer than one word (rule R61). -/
def decodeTableWord (nbits w : Nat) : Option Instr :=
  if nbits ≤ 32 then
    match decode (BitVec.ofNat 32 (w % 2 ^ nbits)) with
    | .ok i => some i
    | .error _ => none
  else none

/-! The opcode map as rows and the encoder (rules R80, R81). -/

/-- The `match` column of rule R80. -/
def Mnemonic.matchBits : Mnemonic → Word
  | .lui => 0x00000037
  | .auipc => 0x00000017
  | .jal => 0x0000006F
  | .jalr => 0x00000067
  | .beq => 0x00000063
  | .bne => 0x00001063
  | .blt => 0x00004063
  | .bge => 0x00005063
  | .bltu => 0x00006063
  | .bgeu => 0x00007063
  | .lw => 0x00002003
  | .sw => 0x00002023
  | .addi => 0x00000013
  | .slti => 0x00002013
  | .sltiu => 0x00003013
  | .slli => 0x00001013
  | .srli => 0x00005013
  | .srai => 0x40005013
  | .add => 0x00000033
  | .sub => 0x40000033
  | .sll => 0x00001033
  | .slt => 0x00002033
  | .sltu => 0x00003033
  | .xor => 0x00004033
  | .srl => 0x00005033
  | .sra => 0x40005033
  | .or => 0x00006033
  | .and => 0x00007033

/-- The `mask` column of rule R80. -/
def Mnemonic.maskBits : Mnemonic → Word
  | .lui | .auipc | .jal => 0x0000007F
  | .jalr | .beq | .bne | .blt | .bge | .bltu | .bgeu | .lw | .sw | .addi | .slti | .sltiu => 0x0000707F
  | .slli | .srli | .srai => 0xFE00707F
  | .add | .sub | .sll | .slt | .sltu | .xor | .srl | .sra | .or | .and => 0xFE00707F

/-- A field value placed at bit `pos` of the word. -/
def place {n : Nat} (v : BitVec n) (pos : Nat) : Word := v.setWidth 32 <<< pos

/-- A register index placed at bit `pos`. -/
def placeReg (r : RegIdx) (pos : Nat) : Word := place (BitVec.ofNat 5 r.val) pos

/-- The R fields of rule R81. -/
def fieldsR (rd rs1 rs2 : RegIdx) : Word := placeReg rd 7 ||| placeReg rs1 15 ||| placeReg rs2 20

/-- The I fields of rule R81. -/
def fieldsI (rd rs1 : RegIdx) (imm : Word) : Word :=
  placeReg rd 7 ||| placeReg rs1 15 ||| place (extractBits imm 0 11) 20

/-- The I fields of the shift-immediate instructions (rule R81). -/
def fieldsShift (rd rs1 : RegIdx) (shamt : Shamt) : Word :=
  placeReg rd 7 ||| placeReg rs1 15 ||| place (BitVec.ofNat 5 shamt.val) 20

/-- The S fields of rule R81. -/
def fieldsS (rs1 rs2 : RegIdx) (imm : Word) : Word :=
  placeReg rs1 15 ||| placeReg rs2 20 ||| place (extractBits imm 0 4) 7 ||| place (extractBits imm 5 11) 25

/-- The B fields of rule R81. -/
def fieldsB (rs1 rs2 : RegIdx) (imm : Word) : Word :=
  placeReg rs1 15 ||| placeReg rs2 20 ||| place (extractBits imm 11 11) 7 ||| place (extractBits imm 1 4) 8 |||
    place (extractBits imm 5 10) 25 ||| place (extractBits imm 12 12) 31

/-- The U fields of rule R81; the 20-bit operand is the assembled immediate's high part (rule R67). -/
def fieldsU (rd : RegIdx) (imm : Word) : Word := placeReg rd 7 ||| place (extractBits imm 12 31) 12

/-- The J fields of rule R81. -/
def fieldsJ (rd : RegIdx) (imm : Word) : Word :=
  placeReg rd 7 ||| place (extractBits imm 12 19) 12 ||| place (extractBits imm 11 11) 20 |||
    place (extractBits imm 1 10) 21 ||| place (extractBits imm 20 20) 31

/-- The operand fields of an instruction, placed by its format (rule R81). -/
def Instr.fields : Instr → Word
  | .lui rd imm | .auipc rd imm => fieldsU rd imm
  | .jal rd imm => fieldsJ rd imm
  | .jalr rd rs1 imm | .lw rd rs1 imm | .addi rd rs1 imm | .slti rd rs1 imm | .sltiu rd rs1 imm =>
    fieldsI rd rs1 imm
  | .sw rs2 rs1 imm => fieldsS rs1 rs2 imm
  | .beq rs1 rs2 imm | .bne rs1 rs2 imm | .blt rs1 rs2 imm | .bge rs1 rs2 imm | .bltu rs1 rs2 imm
  | .bgeu rs1 rs2 imm => fieldsB rs1 rs2 imm
  | .slli rd rs1 shamt | .srli rd rs1 shamt | .srai rd rs1 shamt => fieldsShift rd rs1 shamt
  | .add rd rs1 rs2 | .sub rd rs1 rs2 | .sll rd rs1 rs2 | .slt rd rs1 rs2 | .sltu rd rs1 rs2
  | .xor rd rs1 rs2 | .srl rd rs1 rs2 | .sra rd rs1 rs2 | .or rd rs1 rs2 | .and rd rs1 rs2 =>
    fieldsR rd rs1 rs2

/-- The word of an instruction: `match` of its row OR its operand fields (rule R81). -/
def encode (i : Instr) : Word := i.mnemonic.matchBits ||| i.fields

end Sys2Proof
end

