-- ==== Sys2Proof/Machine/State.lean ====
section
/-! DEFINITION. The state of rule R20 with the parameters of rule R8 and the harness's side beside it, the error kinds of
rule R165, and reset (rules R36, R190). -/

namespace Sys2Proof.Machine

/-- The Memory `M` (rules R34, R40) as the list of its nonzero bytes, addresses strictly rising; an address not listed
holds 0, the reset byte of rule R36 (log entry 6). -/
abbrev Memory := List Host.Cell

/-- The machine. `regs`, `pc`, `mem` are the triple of rule R20. `cfg` holds the parameters, which no step and no reset
changes (rules R23, R190; log entry 1). `prog` and `presented` are the harness's side, not core state. -/
structure State where
  /-- The OPEN parameters of rule R8. -/
  cfg : Config
  /-- The general registers `x[0]` to `x[31]` (rule R20); read and written through `State.readReg` and
  `State.writeReg` only. -/
  regs : Vector Word 32
  /-- The program counter, a byte address (rule R27). -/
  pc : Word
  /-- The data Memory (rule R40). -/
  mem : Memory
  /-- The reference harness's program `P`: word `k` stands at byte address `4 * k` (rule R198). -/
  prog : List Word
  /-- The word a caller has put on the core's input for the next step (rules R194, R195; log entry 4). -/
  presented : Option Word
  deriving DecidableEq, Repr

/-- The three error kinds of rule R165, each with the value rules R166 to R168 record. The step that raises one leaves
the state as it was (rule R172). Each is what the spec says happens, so none departs from it: safe. -/
inductive CoreError where
  /-- Raised by decoding, for every word outside the 28 rows of rule R80 (rules R82, R166). Safe. -/
  | decodeNotImplemented (reason : DecodeReason)
  /-- Raised by LW, SW and the accessors `loadWord`, `storeWord` when `u(addr) + 4 > MEM_SIZE` (rule R168). Safe. -/
  | outOfBoundsMemoryAccess (addr : Word)
  /-- Raised by the accessors `read` and `write` when the index is above 31 (rule R167); by no instruction. Safe. -/
  | invalidRegisterIndex (index : Nat)
  deriving DecidableEq, Repr

/-- Why a step gives no next state. -/
inductive Fault where
  /-- The core reports one of its three errors to the caller (rules R170, R171). Raised by decoding, LW and SW. Safe:
  the spec's own outcome. -/
  | raised (e : CoreError)
  /-- The reference harness has no word at the pc and stops the run with `end_of_program` (rule R199). Raised by `step`
  when it fetches; no error of the core (log entry 7). Safe: the spec's own outcome for that harness. -/
  | endOfProgram
  deriving DecidableEq, Repr

/-- Why the model gives no meaning. No definition of the model answers with this: all 28 instructions have their
meaning (log entry 13). -/
inductive Refusal where
  /-- An instruction rejected by name in `exec`. Raised by no arm. Safe. -/
  | notModelled (mnemonic : String)
  deriving DecidableEq, Repr

/-- The outcome of executing an instruction (rules R170, R193). -/
abbrev Result := Host.Outcome State Fault Refusal

/-- The core right after reset under the parameters `c`: every register 0, the pc at `RESET_PC`, every byte of the
Memory 0 (rules R36, R190), with no program and no word presented (log entry 3). -/
def State.resetOf (c : Config) : State where
  cfg := c
  regs := Vector.replicate 32 0
  pc := resetPc
  mem := []
  prog := []
  presented := none

/-- The machine right after reset. The parameters are `Config.default`, DESIGN CHOICE, unsafe (log entry 2). -/
def State.reset : State := State.resetOf Config.default

/-- The reset event (rule R190): the core's triple goes to the values of rule R36; the parameters do not change, and
what the harness holds is outside the core and stays (log entry 10). -/
def State.afterReset (s : State) : State :=
  { State.resetOf s.cfg with prog := s.prog, presented := s.presented }

end Sys2Proof.Machine
end

