-- ==== Sys2Proof/Machine/Ops.lean ====
section
/-! DEFINITION. The named operations over the Register File and the Memory (rules R13, R14, R21, R22, R40 to R49), and the
shared ways an instruction ends: by writing its results, or by raising an error (rules R28, R170). The core takes no
exception and returns from none (rules R170, R176); `raise` is what stands in that place. -/

namespace Sys2Proof.Machine

/-! The Register File. -/

/-- Register index 0 is hard-wired to zero under this configuration (rules R21, R22). -/
abbrev hardwiredZero (s : State) (i : RegIdx) : Prop := i = 0 ∧ s.cfg.x0Policy = .hardwired

/-- `x[i]` (rule R21). -/
def State.readReg (s : State) (i : RegIdx) : Word :=
  if hardwiredZero s i then 0 else s.regs[i]

/-- `x[i] <- v` (rule R22). -/
def State.writeReg (s : State) (i : RegIdx) (v : Word) : State :=
  if hardwiredZero s i then s else { s with regs := s.regs.set i v }

/-- `pc <- v` (rules R13, R27). -/
def State.setPc (s : State) (v : Word) : State := { s with pc := v }

/-- The address of the next instruction in sequence, modulo 2^32 (rules R28, R29). -/
def State.nextPc (s : State) : Word := s.pc + instrWidth

/-! The Memory, byte by byte. -/

/-- What an address that is not listed holds: the reset byte (rule R36). -/
def unlistedByte : Byte := 0

/-- The canonical form: addresses strictly rising, no listed byte equal to the unlisted one. -/
abbrev Memory.wf (m : Memory) : Prop :=
  m.Pairwise (fun x y => x.1 < y.1) ∧ ∀ c ∈ m, c.2 ≠ unlistedByte

/-- `M[a]` (rule R14). -/
def Memory.readByte : Memory → Nat → Byte
  | [], _ => unlistedByte
  | (k, v) :: m, a => if k = a then v else Memory.readByte m a

/-- A cell in front of a memory, left out where its byte is the unlisted one. -/
def Memory.consCell (a : Nat) (b : Byte) (m : Memory) : Memory :=
  if b = unlistedByte then m else (a, b) :: m

/-- `M[a] <- b`, keeping the canonical form. -/
def Memory.writeByte : Memory → Nat → Byte → Memory
  | [], a, b => Memory.consCell a b []
  | (k, v) :: m, a, b =>
    if a < k then Memory.consCell a b ((k, v) :: m)
    else if a = k then Memory.consCell a b m
    else (k, v) :: Memory.writeByte m a b

/-! Words in memory: little-endian, decided here and nowhere else (rule R41). -/

/-- `{b3, b2, b1, b0}` with `b0` the byte at the lowest address (rule R41). -/
def wordOfBytes (b0 b1 b2 b3 : Byte) : Word := b3 ++ b2 ++ b1 ++ b0

/-- The byte of `v` that stands `k` places above the word's address (rules R41, R45). -/
def byteOfWord (v : Word) (k : Nat) : Byte := v.extractLsb' (8 * k) 8

/-- The word at byte address `a` (rule R41). -/
def Memory.readWord (m : Memory) (a : Nat) : Word :=
  wordOfBytes (m.readByte a) (m.readByte (a + 1)) (m.readByte (a + 2)) (m.readByte (a + 3))

/-- The four bytes of `v` stored at `a` to `a + 3` (rules R41, R45). -/
def Memory.writeWord (m : Memory) (a : Nat) (v : Word) : Memory :=
  (((m.writeByte a (byteOfWord v 0)).writeByte (a + 1) (byteOfWord v 1)).writeByte (a + 2) (byteOfWord v 2)).writeByte
    (a + 3) (byteOfWord v 3)

/-- The bounds check, over the integers, never in wrapping arithmetic (rules R44, R45, R46). -/
abbrev inBounds (s : State) (addr : Word) : Prop := addr.toNat + 4 ≤ s.cfg.memSize

/-- `MemRead(addr, 4)`, the document's `loadWord` (rule R44). No alignment is needed (rule R47). -/
def memRead (s : State) (addr : Word) : Except CoreError Word :=
  if inBounds s addr then .ok (s.mem.readWord addr.toNat) else .error (.outOfBoundsMemoryAccess addr)

/-- `MemWrite(addr, 4, v)`, the document's `storeWord` (rule R45). -/
def memWrite (s : State) (addr v : Word) : Except CoreError State :=
  if inBounds s addr then .ok { s with mem := s.mem.writeWord addr.toNat v }
  else .error (.outOfBoundsMemoryAccess addr)

/-! How an instruction ends. -/

/-- `raise <Kind>(info)` (rules R15, R170): the error is the result of the step, and no state is written. -/
def raise (e : CoreError) : Result := .fault (.raised e)

/-- The instruction completes with `x[rd] <- v` and goes to `target` (rules R16, R28). -/
def writeAndGo (rd : RegIdx) (v target : Word) (s : State) : Result := .next ((s.writeReg rd v).setPc target)

/-- The instruction completes with `x[rd] <- v; pc <- pc + 4` (rules R28, R100, R110). -/
def writeAndAdvance (rd : RegIdx) (v : Word) (s : State) : Result := writeAndGo rd v s.nextPc s

/-- The end of a branch: to `target` when taken, else to `pc + 4` (rules R28, R135). -/
def branchTo (taken : Bool) (target : Word) (s : State) : Result :=
  .next (s.setPc (if taken then target else s.nextPc))

end Sys2Proof.Machine
end

