-- ==== Sys2Proof/Machine/Operands.lean ====
section
/-! DEFINITION. Every operand form the core has: the shift amount in a register, the base-plus-immediate address, the
pc-relative and the register-indirect jump target (rules R75, R132, R145), and the three shifts (rule R12). -/

namespace Sys2Proof.Machine

/-- `x[rs2][4:0]`: the low 5 bits of a register as a shift amount (rules R75, R121). -/
def regShamt (rs2 : RegIdx) (s : State) : Nat := (extractBits (s.readReg rs2) 0 4).toNat

/-- The effective address `x[rs1] + imm` modulo 2^32: the core's one addressing mode (rules R43, R145). -/
def effAddr (rs1 : RegIdx) (imm : Word) (s : State) : Word := s.readReg rs1 + imm

/-- `pc + imm` modulo 2^32, from the address of the instruction itself (rules R126, R132). -/
def pcRelative (imm : Word) (s : State) : Word := s.pc + imm

/-- JALR's target: `(x[rs1] + imm) & 0xFFFFFFFE` (rule R131). -/
def jalrTarget (rs1 : RegIdx) (imm : Word) (s : State) : Word := (s.readReg rs1 + imm) &&& 0xFFFFFFFE#32

/-- `v << n` (rule R12). -/
def shiftLeft (v : Word) (n : Nat) : Word := v <<< n

/-- `v >>u n`: zeros enter at bit 31 (rule R12). -/
def shiftRightLogical (v : Word) (n : Nat) : Word := v >>> n

/-- `v >>s n`: copies of bit 31 enter at bit 31 (rule R12). -/
def shiftRightArith (v : Word) (n : Nat) : Word := v.sshiftRight n

end Sys2Proof.Machine
end

