-- ==== Sys2Proof/Machine/Flags.lean ====
section
/-! DEFINITION. The core has no flag, condition code or predicate register (rule R30), so nothing here is a flag: these
are the comparisons that write 1 or 0 to a register or decide a branch. Each is of the two whole numbers, never of
their wrapped difference (rule R121). -/

namespace Sys2Proof.Machine

/-- `s(a) < s(b)` (rules R10, R114, R138). -/
def ltSigned (a b : Word) : Bool := decide (a.toInt < b.toInt)

/-- `u(a) < u(b)` (rules R10, R115, R140). -/
def ltUnsigned (a b : Word) : Bool := decide (a.toNat < b.toNat)

/-- `cond ? 1 : 0`, the 32-bit result of a comparison (rules R30, R102). -/
def boolWord (b : Bool) : Word := if b then 1 else 0

/-- BEQ's condition (rule R136). -/
def condEq (a b : Word) : Bool := decide (a = b)

/-- BNE's condition (rule R137). -/
def condNe (a b : Word) : Bool := !condEq a b

/-- BLT's condition (rule R138). -/
def condLt (a b : Word) : Bool := ltSigned a b

/-- BGE's condition (rule R139). -/
def condGe (a b : Word) : Bool := decide (b.toInt ≤ a.toInt)

/-- BLTU's condition (rule R140). -/
def condLtu (a b : Word) : Bool := ltUnsigned a b

/-- BGEU's condition (rule R141). -/
def condGeu (a b : Word) : Bool := decide (b.toNat ≤ a.toNat)

end Sys2Proof.Machine
end

