-- ==== Sys2Proof/Machine/AluImm.lean ====
section
/-! DEFINITION. Register-immediate arithmetic, comparison and shift instructions (rules R100 to R106). -/

namespace Sys2Proof.Machine

/-- ADDI (rule R101). -/
def execAddi (rd rs1 : RegIdx) (imm : Word) (s : State) : Result :=
  writeAndAdvance rd (s.readReg rs1 + imm) s

/-- SLTI (rule R102). -/
def execSlti (rd rs1 : RegIdx) (imm : Word) (s : State) : Result :=
  writeAndAdvance rd (boolWord (ltSigned (s.readReg rs1) imm)) s

/-- SLTIU: the immediate is sign-extended and then compared unsigned (rule R103). -/
def execSltiu (rd rs1 : RegIdx) (imm : Word) (s : State) : Result :=
  writeAndAdvance rd (boolWord (ltUnsigned (s.readReg rs1) imm)) s

/-- SLLI (rule R104). -/
def execSlli (rd rs1 : RegIdx) (shamt : Shamt) (s : State) : Result :=
  writeAndAdvance rd (shiftLeft (s.readReg rs1) shamt) s

/-- SRLI (rule R105). -/
def execSrli (rd rs1 : RegIdx) (shamt : Shamt) (s : State) : Result :=
  writeAndAdvance rd (shiftRightLogical (s.readReg rs1) shamt) s

/-- SRAI (rule R106). -/
def execSrai (rd rs1 : RegIdx) (shamt : Shamt) (s : State) : Result :=
  writeAndAdvance rd (shiftRightArith (s.readReg rs1) shamt) s

end Sys2Proof.Machine
end

