-- ==== Sys2Proof/Machine/AluReg.lean ====
section
/-! DEFINITION. Register-register arithmetic, logical, comparison and shift instructions (rules R110 to R120). -/

namespace Sys2Proof.Machine

/-- ADD (rule R111). -/
def execAdd (rd rs1 rs2 : RegIdx) (s : State) : Result :=
  writeAndAdvance rd (s.readReg rs1 + s.readReg rs2) s

/-- SUB: the first source is the minuend (rule R112). -/
def execSub (rd rs1 rs2 : RegIdx) (s : State) : Result :=
  writeAndAdvance rd (s.readReg rs1 - s.readReg rs2) s

/-- SLL (rule R113). -/
def execSll (rd rs1 rs2 : RegIdx) (s : State) : Result :=
  writeAndAdvance rd (shiftLeft (s.readReg rs1) (regShamt rs2 s)) s

/-- SLT (rule R114). -/
def execSlt (rd rs1 rs2 : RegIdx) (s : State) : Result :=
  writeAndAdvance rd (boolWord (ltSigned (s.readReg rs1) (s.readReg rs2))) s

/-- SLTU (rule R115). -/
def execSltu (rd rs1 rs2 : RegIdx) (s : State) : Result :=
  writeAndAdvance rd (boolWord (ltUnsigned (s.readReg rs1) (s.readReg rs2))) s

/-- XOR (rule R116). -/
def execXor (rd rs1 rs2 : RegIdx) (s : State) : Result :=
  writeAndAdvance rd (s.readReg rs1 ^^^ s.readReg rs2) s

/-- SRL (rule R117). -/
def execSrl (rd rs1 rs2 : RegIdx) (s : State) : Result :=
  writeAndAdvance rd (shiftRightLogical (s.readReg rs1) (regShamt rs2 s)) s

/-- SRA (rule R118). -/
def execSra (rd rs1 rs2 : RegIdx) (s : State) : Result :=
  writeAndAdvance rd (shiftRightArith (s.readReg rs1) (regShamt rs2 s)) s

/-- OR (rule R119). -/
def execOr (rd rs1 rs2 : RegIdx) (s : State) : Result :=
  writeAndAdvance rd (s.readReg rs1 ||| s.readReg rs2) s

/-- AND (rule R120). -/
def execAnd (rd rs1 rs2 : RegIdx) (s : State) : Result :=
  writeAndAdvance rd (s.readReg rs1 &&& s.readReg rs2) s

end Sys2Proof.Machine
end

