-- ==== Sys2Proof/Machine/Branches.lean ====
section
/-! DEFINITION. Conditional branches (rules R135 to R142): `x[rs1]` is the first operand of the comparison. -/

namespace Sys2Proof.Machine

/-- BEQ (rule R136). -/
def execBeq (rs1 rs2 : RegIdx) (imm : Word) (s : State) : Result :=
  branchTo (condEq (s.readReg rs1) (s.readReg rs2)) (pcRelative imm s) s

/-- BNE (rule R137). -/
def execBne (rs1 rs2 : RegIdx) (imm : Word) (s : State) : Result :=
  branchTo (condNe (s.readReg rs1) (s.readReg rs2)) (pcRelative imm s) s

/-- BLT (rule R138). -/
def execBlt (rs1 rs2 : RegIdx) (imm : Word) (s : State) : Result :=
  branchTo (condLt (s.readReg rs1) (s.readReg rs2)) (pcRelative imm s) s

/-- BGE (rule R139). -/
def execBge (rs1 rs2 : RegIdx) (imm : Word) (s : State) : Result :=
  branchTo (condGe (s.readReg rs1) (s.readReg rs2)) (pcRelative imm s) s

/-- BLTU (rule R140). -/
def execBltu (rs1 rs2 : RegIdx) (imm : Word) (s : State) : Result :=
  branchTo (condLtu (s.readReg rs1) (s.readReg rs2)) (pcRelative imm s) s

/-- BGEU (rule R141). -/
def execBgeu (rs1 rs2 : RegIdx) (imm : Word) (s : State) : Result :=
  branchTo (condGeu (s.readReg rs1) (s.readReg rs2)) (pcRelative imm s) s

end Sys2Proof.Machine
end

