-- ==== Sys2Proof/Machine/Jumps.lean ====
section
/-! DEFINITION. Unconditional jumps (rules R130 to R132): they cannot fail, and no target is checked. -/

namespace Sys2Proof.Machine

/-- JAL (rule R130). -/
def execJal (rd : RegIdx) (imm : Word) (s : State) : Result := writeAndGo rd s.nextPc (pcRelative imm s) s

/-- JALR: the target is formed from the old `x[rs1]`, before the link is written (rule R131). -/
def execJalr (rd rs1 : RegIdx) (imm : Word) (s : State) : Result :=
  writeAndGo rd s.nextPc (jalrTarget rs1 imm s) s

end Sys2Proof.Machine
end

