-- ==== Sys2Proof/Machine/LoadStore.lean ====
section
/-! DEFINITION. Load and store (rules R145 to R148): the bounds check is before every write (rules R168, R172). -/

namespace Sys2Proof.Machine

/-- LW (rule R146). -/
def execLw (rd rs1 : RegIdx) (imm : Word) (s : State) : Result :=
  match memRead s (effAddr rs1 imm s) with
  | .ok v => writeAndAdvance rd v s
  | .error e => raise e

/-- SW (rule R147). -/
def execSw (rs2 rs1 : RegIdx) (imm : Word) (s : State) : Result :=
  match memWrite s (effAddr rs1 imm s) (s.readReg rs2) with
  | .ok t => .next (t.setPc s.nextPc)
  | .error e => raise e

end Sys2Proof.Machine
end

