-- ==== Sys2Proof/Machine/UpperImm.lean ====
section
/-! DEFINITION. Upper-immediate instructions (rules R125, R126). -/

namespace Sys2Proof.Machine

/-- LUI (rule R125). -/
def execLui (rd : RegIdx) (imm : Word) (s : State) : Result := writeAndAdvance rd imm s

/-- AUIPC: adds the address of this instruction, not of the next (rule R126). -/
def execAuipc (rd : RegIdx) (imm : Word) (s : State) : Result := writeAndAdvance rd (pcRelative imm s) s

end Sys2Proof.Machine
end

