-- ==== Sys2Proof/Machine/Fetch.lean ====
section
/-! DEFINITION. `Step(w)` of rule R193, and where the next word comes from: the caller's input (rules R194, R195) or the
reference harness's program (rules R198, R199). -/

namespace Sys2Proof.Machine

/-- `Step(w)` (rule R193): decode, then execute; the decode checks come first (rule R175). -/
def stepWord (w : Word) (s : State) : Result :=
  match decode w with
  | .error r => raise (.decodeNotImplemented r)
  | .ok i => exec i s

/-- The word of `P` that stands at the pc: none when the pc is not a multiple of 4 or lies past the end
(rules R198, R199). -/
def progWord (s : State) : Option Word :=
  if s.pc.toNat % 4 ≠ 0 then none else s.prog[s.pc.toNat / 4]?

/-- The next step's word and the state it is executed in. A word on the input is taken, and taken from the input, before
the program is looked at (log entry 4). -/
def fetch (s : State) : Option (Word × State) :=
  match s.presented with
  | some w => some (w, { s with presented := none })
  | none => (progWord s).map (fun w => (w, s))

/-- Put a word on the core's input for the next step (rules R194, R195). -/
def present (w : Word) (s : State) : State := { s with presented := some w }

end Sys2Proof.Machine
end

