-- ==== Sys2Proof/Machine/Step.lean ====
section
/-! DEFINITION. One step: the next word is fetched and `Step(w)` of rule R193 runs on it. With no word on the input this
is one turn of the reference harness's loop (rule R199). -/

namespace Sys2Proof.Machine

/-- One step (rules R193, R194, R199). -/
def step (s : State) : Host.Outcome State Fault Refusal :=
  match fetch s with
  | none => .fault .endOfProgram
  | some (w, t) => stepWord w t

/-- `s` with the instruction word `w` (its low `nbits` bits, the bits above them 0) on the core's input, from which the
next step takes it (rule R194; log entry 9). -/
def State.withFetchWord (s : State) (nbits w : Nat) : State := present (BitVec.ofNat 32 (w % 2 ^ nbits)) s

end Sys2Proof.Machine
end

