-- ==== Sys2Proof/Machine/Accessors.lean ====
section
/-! DEFINITION. The harness's accessor port: the six operations of rule R35 and what they can answer (rules R167, R169,
R194). They are applied between steps only (rule R196), so `step` does not call them (log entry 11). -/

namespace Sys2Proof.Machine

/-- A call on the accessor port (rules R35, R194). The index is any number: the check is the port's (rule R167). -/
inductive HarnessCall where
  | read (index : Nat)
  | write (index : Nat) (v : Word)
  | readPC
  | writePC (v : Word)
  | loadWord (addr : Word)
  | storeWord (addr v : Word)
  deriving DecidableEq, Repr

/-- What a call answers: an error, or, for the reading calls, a value. -/
abbrev Answer := Except CoreError (Option Word)

/-- `read(index)` (rules R21, R35, R167). -/
def accessRead (index : Nat) (s : State) : State × Answer :=
  if h : index < 32 then (s, .ok (some (s.readReg ⟨index, h⟩))) else (s, .error (.invalidRegisterIndex index))

/-- `write(index, value)` (rules R22, R35, R167). -/
def accessWrite (index : Nat) (v : Word) (s : State) : State × Answer :=
  if h : index < 32 then (s.writeReg ⟨index, h⟩ v, .ok none) else (s, .error (.invalidRegisterIndex index))

/-- `loadWord(address)` (rules R35, R44). -/
def accessLoadWord (addr : Word) (s : State) : State × Answer :=
  match memRead s addr with
  | .ok v => (s, .ok (some v))
  | .error e => (s, .error e)

/-- `storeWord(address, value)` (rules R35, R45). -/
def accessStoreWord (addr v : Word) (s : State) : State × Answer :=
  match memWrite s addr v with
  | .ok t => (t, .ok none)
  | .error e => (s, .error e)

/-- One call: the state after it and its answer. A call that ends in an error leaves the state as it was
(rules R167, R172). -/
def access (c : HarnessCall) (s : State) : State × Answer :=
  match c with
  | .read index => accessRead index s
  | .write index v => accessWrite index v s
  | .readPC => (s, .ok (some s.pc))
  | .writePC v => (s.setPc v, .ok none)
  | .loadWord addr => accessLoadWord addr s
  | .storeWord addr v => accessStoreWord addr v s

end Sys2Proof.Machine
end

