-- ==== Sys2Proof/Machine/Harness.lean ====
section
/-! DEFINITION. The reference harness's run loop (rules R199, R200). It is the spec's own addition, not part of the core. -/

namespace Sys2Proof.Machine

/-- How a run ends, with the state at that moment (rules R199, R200). -/
inductive RunOutcome where
  /-- The pc holds no address of a word of `P` (rule R199). -/
  | endOfProgram (s : State)
  /-- A step returned an error; `s` is the state before that step (rules R172, R199). -/
  | faulted (e : CoreError) (s : State)
  /-- The model rejected an instruction by name; no arm of `exec` does. -/
  | rejected (r : Refusal) (s : State)
  /-- The step bound is used up: no verdict, not an outcome of the machine (rule R200). -/
  | noVerdict (s : State)
  deriving DecidableEq, Repr

/-- `Run(P)` under a bound on the number of loop turns (rules R199, R200). -/
def run : Nat → State → RunOutcome
  | 0, s => .noVerdict s
  | n + 1, s =>
    match step s with
    | .next t => run n t
    | .fault .endOfProgram => .endOfProgram s
    | .fault (.raised e) => .faulted e s
    | .refused r => .rejected r s

/-- The launch of a program: `P` is in place and the harness presents its words (rules R191, R192, R198). -/
def launch (p : List Word) (s : State) : State := { s with prog := p, presented := none }

end Sys2Proof.Machine
end

