-- ==== Sys2Proof/Safety.lean ====
section
/-! DEFINITION. What claims are stated in: the invariant of the machine, what a step leaves unchanged, an instruction's
fields read from its word, and what counts as a run that ended (rule R199). -/

namespace Sys2Proof.Machine

/-- The invariant: the parameter is in its range (rule R8), the Memory keeps its canonical form and lists no address
outside `MEM_SIZE` (rule R40), and the stored entry of a hard-wired register 0 is the 0 it reads as (log entry 5). -/
structure State.Inv (s : State) : Prop where
  cfgWf : s.cfg.wf
  memWf : s.mem.wf
  memInside : ∀ c ∈ s.mem, c.1 < s.cfg.memSize
  zeroSlot : s.cfg.x0Policy = .hardwired → s.regs[(0 : RegIdx)] = 0

/-- Every general register reads as before. -/
def SameRegs (s t : State) : Prop := ∀ r, t.readReg r = s.readReg r

/-- Every byte of memory reads as before. -/
def SameMem (s t : State) : Prop := ∀ a, t.mem.readByte a = s.mem.readByte a

/-- The parameters and the harness's side are as before. -/
def SameHarness (s t : State) : Prop := t.cfg = s.cfg ∧ t.prog = s.prog ∧ t.presented = s.presented

/-- `x[rd] <- v` and no other register: register `rd` reads `v` after, unless it is the hard-wired register 0, to which
the write changes nothing (rule R22). -/
def RegWritten (s t : State) (rd : RegIdx) (v : Word) : Prop :=
  ∀ r, t.readReg r = if r = rd ∧ ¬ hardwiredZero s rd then v else s.readReg r

/-- The whole effect of an instruction that writes one register: the register, the pc, and nothing else. -/
def WroteReg (s t : State) (rd : RegIdx) (v target : Word) : Prop :=
  RegWritten s t rd v ∧ t.pc = target ∧ SameMem s t ∧ SameHarness s t

/-- The whole effect of an instruction that changes the pc only. -/
def WentTo (s t : State) (target : Word) : Prop :=
  SameRegs s t ∧ t.pc = target ∧ SameMem s t ∧ SameHarness s t

/-- The whole effect of a word store at address `a`: its four bytes, lowest byte first (rule R45), the pc, and nothing
else. -/
def StoredWord (s t : State) (a : Nat) (v target : Word) : Prop :=
  (∀ k < 4, (t.mem.readByte (a + k)).toNat = v.toNat / 2 ^ (8 * k) % 2 ^ 8) ∧
    (∀ x, ¬ (a ≤ x ∧ x < a + 4) → t.mem.readByte x = s.mem.readByte x) ∧
    SameRegs s t ∧ t.pc = target ∧ SameHarness s t

/-! The fields of an instruction word (rule R17), by the formula of rule R60. -/

/-- `w[11:7]`. -/
def rdField (w : Word) : RegIdx := Fin.ofNat 32 (w.toNat / 2 ^ 7)

/-- `w[19:15]`. -/
def rs1Field (w : Word) : RegIdx := Fin.ofNat 32 (w.toNat / 2 ^ 15)

/-- `w[24:20]`. -/
def rs2Field (w : Word) : RegIdx := Fin.ofNat 32 (w.toNat / 2 ^ 20)

/-- `w[24:20]` as a shift amount (rule R75). -/
def shamtField (w : Word) : Shamt := Fin.ofNat 32 (w.toNat / 2 ^ 20)

/-- Every word with the fixed bits `bits` under `mask` decodes to the instruction `f` reads from it (rule R80). -/
def DecodesRow (mask bits : Word) (f : Word → Instr) : Prop := ∀ w, w &&& mask = bits → decode w = .ok (f w)

/-- The state a step that completes leaves behind is changed by `f`; an outcome that is not a next state stays. -/
def mapNext (f : State → State) : Result → Result
  | .next t => .next (f t)
  | .fault e => .fault e
  | .refused r => .refused r

/-- The machine under another register-0 policy (rule R23). -/
def withPolicy (p : X0Policy) (s : State) : State := { s with cfg := { s.cfg with x0Policy := p } }

/-- The machine with another value in the stored entry of register 0, written past `State.writeReg`. -/
def withZeroSlot (v : Word) (s : State) : State := { s with regs := s.regs.set (0 : RegIdx) v }

/-- A run ended normally within the bound, in state `t` (rule R199). -/
def EndsNormally (n : Nat) (s t : State) : Prop := run n s = .endOfProgram t

/-- A run stopped with an error within the bound, in state `t` (rule R199). -/
def StopsFaulted (n : Nat) (s : State) (e : CoreError) (t : State) : Prop := run n s = .faulted e t

/-- The reference harness presents `w` next: nothing is on the input, and `w` stands in the program at the pc (rules R198,
R199). -/
def StandsAtPc (w : Word) (s : State) : Prop :=
  s.presented = none ∧ s.pc.toNat % 4 = 0 ∧ s.prog[s.pc.toNat / 4]? = some w

end Sys2Proof.Machine
end

