-- ==== Sys2Proof/Certificates/Slice0/Obligations.lean ====
section
/-! DEFINITION. The statements for the provers. Each formalises rules of the spec as its docstring says; each result is put
in the spec's own arithmetic (rule R10's readings `u` and `s`), not in the model's operations. -/

open Sys2Proof Sys2Proof.Machine

/-! Bit fields, immediates and decoding. -/

/-- Rule R60: `extractBits(w, lo, hi) = (u(w) div 2^lo) mod 2^(hi - lo + 1)`. -/
def Obligations.ExtractBitsIsDivMod : Prop :=
  ∀ (w : Word) (lo hi : Nat), lo ≤ hi → hi ≤ 31 →
    (extractBits w lo hi).toNat = w.toNat / 2 ^ lo % 2 ^ (hi - lo + 1)

/-- Rule R70: the I immediate bit by bit, its range, and `sext_12` on every raw value and at the extremes. -/
def Obligations.ImmediateIBitsAndRange : Prop :=
  (∀ w : Word, (∀ i < 32, (immI w).getLsbD i = if i ≤ 10 then w.getLsbD (20 + i) else w.getLsbD 31) ∧
    -2048 ≤ (immI w).toInt ∧ (immI w).toInt ≤ 2047) ∧
  (∀ v : BitVec 12, (∀ i < 12, (sext v).getLsbD i = v.getLsbD i) ∧
    ∀ i < 32, 12 ≤ i → (sext v).getLsbD i = v.getLsbD 11) ∧
  sext (0x800 : BitVec 12) = 0xFFFFF800 ∧ sext (0x7FF : BitVec 12) = 0x000007FF

/-- Rule R71: the S immediate bit by bit, and its range. -/
def Obligations.ImmediateSBitsAndRange : Prop :=
  ∀ w : Word, (∀ i < 32, (immS w).getLsbD i =
      if i ≤ 4 then w.getLsbD (7 + i) else if i ≤ 10 then w.getLsbD (20 + i) else w.getLsbD 31) ∧
    -2048 ≤ (immS w).toInt ∧ (immS w).toInt ≤ 2047

/-- Rule R72: the B immediate bit by bit (`w[7]` at bit 11, `w[31]` at bit 12 and above), its range, and that it is even.
-/
def Obligations.ImmediateBBitsAndRange : Prop :=
  ∀ w : Word, (∀ i < 32, (immB w).getLsbD i =
      if i = 0 then false else if i ≤ 4 then w.getLsbD (7 + i) else if i ≤ 10 then w.getLsbD (20 + i)
      else if i = 11 then w.getLsbD 7 else w.getLsbD 31) ∧
    -4096 ≤ (immB w).toInt ∧ (immB w).toInt ≤ 4094 ∧ (immB w).toInt % 2 = 0

/-- Rule R73, which the spec marks as derived: the U immediate is `w & 0xFFFFF000`, the same as the sign-extended field
shifted left by 12, and a multiple of 4096 in the signed range; field value 1 gives 4096. -/
def Obligations.ImmediateUIsHighPart : Prop :=
  (∀ w : Word, immU w = w &&& 0xFFFFF000 ∧ immU w = sext (extractBits w 12 31) <<< 12 ∧
    (immU w).toInt % 4096 = 0 ∧ -2147483648 ≤ (immU w).toInt ∧ (immU w).toInt ≤ 2147483648 - 4096) ∧
  (∀ w : Word, (extractBits w 12 31).toNat = 1 → immU w = 4096)

/-- Rule R74, which the spec marks as derived: the J immediate bit by bit, its range, and that it is even. -/
def Obligations.ImmediateJBitsAndRange : Prop :=
  ∀ w : Word, (∀ i < 32, (immJ w).getLsbD i =
      if i = 0 then false else if i ≤ 10 then w.getLsbD (20 + i) else if i = 11 then w.getLsbD 20
      else if i ≤ 19 then w.getLsbD i else w.getLsbD 31) ∧
    -1048576 ≤ (immJ w).toInt ∧ (immJ w).toInt ≤ 1048574 ∧ (immJ w).toInt % 2 = 0

/-- A few words of 95_test_vectors.md, one of each family and one of each refusal: a sanity statement. -/
def Obligations.SampleWordsDecode : Prop :=
  decode 0x80028293 = .ok (.addi 5 5 (-2048)) ∧
  decode 0x40205093 = .ok (.srai 1 0 2) ∧
  decode 0x403100B3 = .ok (.sub 1 2 3) ∧
  decode 0x00001097 = .ok (.auipc 1 0x1000) ∧
  decode 0xDEADBEEF = .ok (.jal 29 0xFFFDB5EA) ∧
  decode 0x004080E7 = .ok (.jalr 1 1 4) ∧
  decode 0x002090E3 = .ok (.bne 1 2 2048) ∧
  decode 0xFFD0A183 = .ok (.lw 3 1 (-3)) ∧
  decode 0x0220AFA3 = .ok (.sw 2 1 63) ∧
  decode 0x00000000 = .error .compressedClass ∧
  decode 0xFFFFFFFF = .error .unknownOpcode ∧
  decode 0x02310033 = .error .unknownFunction

/-- The last but one sentence of rule R81, which the spec marks as derived, for every well-formed instruction: decoding
its word gives it back, every operand with every value the encoding admits. -/
def Obligations.DecodeOfEncodeIsIdentity : Prop :=
  ∀ i : Instr, i.wf = true → decode (encode i) = .ok i

/-- The other direction: a word that decodes is the encoding of what it decodes to, and that is well-formed; so no bit of
an accepted word is dropped. -/
def Obligations.EncodeOfDecodeIsIdentity : Prop :=
  ∀ (w : Word) (i : Instr), decode w = .ok i → i.wf = true ∧ encode i = w

/-- Rule R161, which the spec marks as derived: exactly the words with `w & mask = match` for one of the rows decode, each
to that row's instruction; every other word is refused, and no word matches two rows. -/
def Obligations.ExactlyTheRowsDecode : Prop :=
  (∀ (w : Word) (i : Instr), decode w = .ok i → w &&& i.mnemonic.maskBits = i.mnemonic.matchBits) ∧
  (∀ (w : Word) (m : Mnemonic), w &&& m.maskBits = m.matchBits → ∃ i, decode w = .ok i ∧ i.mnemonic = m) ∧
  (∀ w : Word, (∀ m : Mnemonic, w &&& m.maskBits ≠ m.matchBits) → ∃ r, decode w = .error r) ∧
  (∀ (w : Word) (m n : Mnemonic), w &&& m.maskBits = m.matchBits → w &&& n.maskBits = n.matchBits → m = n)

/-- Rules R86 and R87: when the compressed class and when an unknown opcode is reported. The nine numbers are those of
rule R77. -/
def Obligations.CompressedAndUnknownOpcodeExactly : Prop :=
  ∀ w : Word,
    (decode w = .error .compressedClass ↔ w.toNat % 4 ≠ 3) ∧
    (decode w = .error .unknownOpcode ↔ w.toNat % 4 = 3 ∧
      w.toNat % 128 ∉ [0x37, 0x17, 0x6F, 0x67, 0x63, 0x03, 0x23, 0x13, 0x33])

/-- Rule R88: the complete list of the words refused for their function fields. -/
def Obligations.UnknownFunctionExactly : Prop :=
  ∀ w : Word, decode w = .error .unknownFunction ↔
    (w.toNat % 128 = 0x67 ∧ w.toNat / 2 ^ 12 % 8 ≠ 0) ∨
    (w.toNat % 128 = 0x63 ∧ (w.toNat / 2 ^ 12 % 8 = 2 ∨ w.toNat / 2 ^ 12 % 8 = 3)) ∨
    (w.toNat % 128 = 0x03 ∧ w.toNat / 2 ^ 12 % 8 ≠ 2) ∨
    (w.toNat % 128 = 0x23 ∧ w.toNat / 2 ^ 12 % 8 ≠ 2) ∨
    (w.toNat % 128 = 0x13 ∧
      (w.toNat / 2 ^ 12 % 8 = 4 ∨ w.toNat / 2 ^ 12 % 8 = 6 ∨ w.toNat / 2 ^ 12 % 8 = 7 ∨
        (w.toNat / 2 ^ 12 % 8 = 1 ∧ w.toNat / 2 ^ 25 ≠ 0) ∨
        (w.toNat / 2 ^ 12 % 8 = 5 ∧ w.toNat / 2 ^ 25 ≠ 0 ∧ w.toNat / 2 ^ 25 ≠ 32))) ∨
    (w.toNat % 128 = 0x33 ∧
      ((w.toNat / 2 ^ 25 ≠ 0 ∧ w.toNat / 2 ^ 25 ≠ 32) ∨
        (w.toNat / 2 ^ 25 = 32 ∧ w.toNat / 2 ^ 12 % 8 ≠ 0 ∧ w.toNat / 2 ^ 12 % 8 ≠ 5)))

/-- Rules R155 and R156: every MISC-MEM and every SYSTEM word, in any state, is refused as an unknown opcode, and a run
that meets one stops in the state before it. -/
def Obligations.FenceAndSystemWordsRefused : Prop :=
  ∀ (w : Word) (s : State), w.toNat % 128 = 0x0F ∨ w.toNat % 128 = 0x73 →
    stepWord w s = .fault (.raised (.decodeNotImplemented .unknownOpcode)) ∧
    (StandsAtPc w s → StopsFaulted 1 s (.decodeNotImplemented .unknownOpcode) s)

/-- Rules R157 and R159: ANDI, ORI, XORI and every LOAD and STORE function but LW and SW, in any state, are refused as
unknown functions, and a run that meets one stops in the state before it. -/
def Obligations.LogicalImmediateAndSubwordRefused : Prop :=
  ∀ (w : Word) (s : State),
    (w.toNat % 128 = 0x13 ∧ w.toNat / 2 ^ 12 % 8 ∈ [7, 6, 4]) ∨
    (w.toNat % 128 = 0x03 ∧ w.toNat / 2 ^ 12 % 8 ≠ 2) ∨ (w.toNat % 128 = 0x23 ∧ w.toNat / 2 ^ 12 % 8 ≠ 2) →
    stepWord w s = .fault (.raised (.decodeNotImplemented .unknownFunction)) ∧
    (StandsAtPc w s → StopsFaulted 1 s (.decodeNotImplemented .unknownFunction) s)

/-! The Register File and the Memory. -/

/-- Rules R21 and R22: a read returns the value last written, register 0 under `hardwired` reads 0 and takes no write,
before any write a register holds its reset value, and the harness's `read` and `write` follow the same two rules. -/
def Obligations.RegisterFileHoldsLastWrite : Prop :=
  (∀ (s : State) (i j : RegIdx) (v : Word), (s.writeReg i v).readReg j =
    if j = i ∧ ¬ (i = 0 ∧ s.cfg.x0Policy = .hardwired) then v else s.readReg j) ∧
  (∀ s : State, s.cfg.x0Policy = .hardwired → s.readReg 0 = 0 ∧ ∀ v, s.writeReg 0 v = s) ∧
  (∀ (c : Config) (i : RegIdx), (State.resetOf c).readReg i = 0) ∧
  (∀ (n : Nat) (h : n < 32) (v : Word) (s : State),
    access (.read n) s = (s, .ok (some (s.readReg ⟨n, h⟩))) ∧
    access (.write n v) s = (s.writeReg ⟨n, h⟩ v, .ok none))

/-- Rules R41 and R44: a word read in bounds is the four bytes, the lowest address least significant; outside, the error.
The accessor `loadWord` is the same operation and changes nothing. -/
def Obligations.WordReadIsLittleEndian : Prop :=
  ∀ (s : State) (a : Word),
    (a.toNat + 4 ≤ s.cfg.memSize → ∃ v, memRead s a = .ok v ∧ access (.loadWord a) s = (s, .ok (some v)) ∧
      v.toNat = (s.mem.readByte a.toNat).toNat + 2 ^ 8 * (s.mem.readByte (a.toNat + 1)).toNat +
        2 ^ 16 * (s.mem.readByte (a.toNat + 2)).toNat + 2 ^ 24 * (s.mem.readByte (a.toNat + 3)).toNat) ∧
    (a.toNat + 4 > s.cfg.memSize → memRead s a = .error (.outOfBoundsMemoryAccess a) ∧
      access (.loadWord a) s = (s, .error (.outOfBoundsMemoryAccess a)))

/-- Rule R45: a word write in bounds changes its four bytes and nothing else; outside, the error and no change. The
accessor `storeWord` is the same operation. The premise on the Memory is kept by every step (StepKeepsInvariant). -/
def Obligations.WordWriteStoresFourBytes : Prop :=
  ∀ (s : State) (a v : Word), s.mem.wf →
    (a.toNat + 4 ≤ s.cfg.memSize → ∃ t, memWrite s a v = .ok t ∧ access (.storeWord a v) s = (t, .ok none) ∧
      StoredWord s t a.toNat v s.pc) ∧
    (a.toNat + 4 > s.cfg.memSize → memWrite s a v = .error (.outOfBoundsMemoryAccess a) ∧
      access (.storeWord a v) s = (s, .error (.outOfBoundsMemoryAccess a)))

/-- Rule R43: the effective address is the sum modulo 2^32, and with `MEM_SIZE` in its range an address with bit 31 set is
out of bounds for a read and a write. -/
def Obligations.EffectiveAddressWrapsUnsigned : Prop :=
  (∀ (rs1 : RegIdx) (imm : Word) (s : State),
    (effAddr rs1 imm s).toNat = ((s.readReg rs1).toNat + imm.toNat) % 2 ^ 32) ∧
  (∀ (s : State) (a v : Word), s.cfg.wf → a.getLsbD 31 = true →
    memRead s a = .error (.outOfBoundsMemoryAccess a) ∧ memWrite s a v = .error (.outOfBoundsMemoryAccess a))

/-- Rule R46, which the spec marks as derived: the bounds check does not wrap: an address whose word would pass the top of
the 32-bit space is refused; below 4 bytes of Memory every access raises; the last legal address is `MEM_SIZE - 4`. -/
def Obligations.BoundsCheckDoesNotWrap : Prop :=
  ∀ (s : State) (a v : Word),
    (s.cfg.wf → 2 ^ 32 ≤ a.toNat + 4 → memRead s a = .error (.outOfBoundsMemoryAccess a) ∧
      memWrite s a v = .error (.outOfBoundsMemoryAccess a)) ∧
    (s.cfg.memSize < 4 → memRead s a = .error (.outOfBoundsMemoryAccess a) ∧
      memWrite s a v = .error (.outOfBoundsMemoryAccess a)) ∧
    (4 ≤ s.cfg.memSize →
      ((∃ x, memRead s a = .ok x) ↔ a.toNat ≤ s.cfg.memSize - 4) ∧
      ((∃ t, memWrite s a v = .ok t) ↔ a.toNat ≤ s.cfg.memSize - 4))

/-- Rule R58, which the spec marks as derived: a word read after a word write at the same address, aligned or not, returns
the word. -/
def Obligations.StoreThenLoadReturnsValue : Prop :=
  ∀ (s : State) (a v : Word), s.mem.wf → a.toNat + 4 ≤ s.cfg.memSize →
    ∃ t, memWrite s a v = .ok t ∧ memRead t a = .ok v

/-- The example of rule R42, which the spec marks as derived, for all words and addresses: after two adjacent word writes,
the word one byte above the first has three bytes of the first and the lowest of the second. -/
def Obligations.OverlappingReadPinsByteOrder : Prop :=
  ∀ (s : State) (a v w : Word), s.mem.wf → s.cfg.wf → a.toNat + 8 ≤ s.cfg.memSize →
    ∃ t u x, memWrite s a v = .ok t ∧ memWrite t (a + 4) w = .ok u ∧ memRead u (a + 1) = .ok x ∧
      x.toNat = v.toNat / 2 ^ 8 + 2 ^ 24 * (w.toNat % 2 ^ 8)

/-! The instructions: which words they are, that they complete, what they write, what they leave. -/

/-- Rule R101 (with R100). -/
def Obligations.AddiResult : Prop :=
  DecodesRow 0x0000707F 0x00000013 (fun w => .addi (rdField w) (rs1Field w) (immI w)) ∧
  ∀ (rd rs1 : RegIdx) (imm : Word) (s : State), ∃ t v, exec (.addi rd rs1 imm) s = .next t ∧
    v.toNat = ((s.readReg rs1).toNat + imm.toNat) % 2 ^ 32 ∧ WroteReg s t rd v (s.pc + 4)

/-- Rule R102: the signed comparison. -/
def Obligations.SltiResult : Prop :=
  DecodesRow 0x0000707F 0x00002013 (fun w => .slti (rdField w) (rs1Field w) (immI w)) ∧
  ∀ (rd rs1 : RegIdx) (imm : Word) (s : State), ∃ t v, exec (.slti rd rs1 imm) s = .next t ∧
    v.toNat = (if (s.readReg rs1).toInt < imm.toInt then 1 else 0) ∧ WroteReg s t rd v (s.pc + 4)

/-- Rule R103, which the spec marks as its own inference: the sign-extended immediate, compared unsigned. -/
def Obligations.SltiuResult : Prop :=
  DecodesRow 0x0000707F 0x00003013 (fun w => .sltiu (rdField w) (rs1Field w) (immI w)) ∧
  ∀ (rd rs1 : RegIdx) (imm : Word) (s : State), ∃ t v, exec (.sltiu rd rs1 imm) s = .next t ∧
    v.toNat = (if (s.readReg rs1).toNat < imm.toNat then 1 else 0) ∧ WroteReg s t rd v (s.pc + 4)

/-- Rules R104, R105 and R106: which words they are, which of their opcode's shift words are refused, and the results. -/
def Obligations.ShiftImmediateResult : Prop :=
  DecodesRow 0xFE00707F 0x00001013 (fun w => .slli (rdField w) (rs1Field w) (shamtField w)) ∧
  DecodesRow 0xFE00707F 0x00005013 (fun w => .srli (rdField w) (rs1Field w) (shamtField w)) ∧
  DecodesRow 0xFE00707F 0x40005013 (fun w => .srai (rdField w) (rs1Field w) (shamtField w)) ∧
  (∀ w : Word, w &&& 0x0000707F = 0x00001013 → w.toNat / 2 ^ 25 ≠ 0 → decode w = .error .unknownFunction) ∧
  (∀ w : Word, w &&& 0x0000707F = 0x00005013 → w.toNat / 2 ^ 25 ≠ 0 → w.toNat / 2 ^ 25 ≠ 32 →
    decode w = .error .unknownFunction) ∧
  ∀ (rd rs1 : RegIdx) (n : Shamt) (s : State),
    (∃ t v, exec (.slli rd rs1 n) s = .next t ∧
      v.toNat = (s.readReg rs1).toNat * 2 ^ n.val % 2 ^ 32 ∧ WroteReg s t rd v (s.pc + 4)) ∧
    (∃ t v, exec (.srli rd rs1 n) s = .next t ∧
      v.toNat = (s.readReg rs1).toNat / 2 ^ n.val ∧ WroteReg s t rd v (s.pc + 4)) ∧
    (∃ t v, exec (.srai rd rs1 n) s = .next t ∧
      v.toInt = (s.readReg rs1).toInt / 2 ^ n.val ∧ WroteReg s t rd v (s.pc + 4))

/-- Rules R111 and R112. -/
def Obligations.AddSubResult : Prop :=
  DecodesRow 0xFE00707F 0x00000033 (fun w => .add (rdField w) (rs1Field w) (rs2Field w)) ∧
  DecodesRow 0xFE00707F 0x40000033 (fun w => .sub (rdField w) (rs1Field w) (rs2Field w)) ∧
  ∀ (rd rs1 rs2 : RegIdx) (s : State),
    (∃ t v, exec (.add rd rs1 rs2) s = .next t ∧
      v.toNat = ((s.readReg rs1).toNat + (s.readReg rs2).toNat) % 2 ^ 32 ∧ WroteReg s t rd v (s.pc + 4)) ∧
    (∃ t v, exec (.sub rd rs1 rs2) s = .next t ∧
      (v.toNat : Int) = ((s.readReg rs1).toNat - (s.readReg rs2).toNat : Int) % 2 ^ 32 ∧
      WroteReg s t rd v (s.pc + 4))

/-- Rules R114 and R115. -/
def Obligations.SltSltuResult : Prop :=
  DecodesRow 0xFE00707F 0x00002033 (fun w => .slt (rdField w) (rs1Field w) (rs2Field w)) ∧
  DecodesRow 0xFE00707F 0x00003033 (fun w => .sltu (rdField w) (rs1Field w) (rs2Field w)) ∧
  ∀ (rd rs1 rs2 : RegIdx) (s : State),
    (∃ t v, exec (.slt rd rs1 rs2) s = .next t ∧
      v.toNat = (if (s.readReg rs1).toInt < (s.readReg rs2).toInt then 1 else 0) ∧ WroteReg s t rd v (s.pc + 4)) ∧
    (∃ t v, exec (.sltu rd rs1 rs2) s = .next t ∧
      v.toNat = (if (s.readReg rs1).toNat < (s.readReg rs2).toNat then 1 else 0) ∧ WroteReg s t rd v (s.pc + 4))

/-- Rules R116, R119 and R120, bit by bit. -/
def Obligations.XorOrAndResult : Prop :=
  DecodesRow 0xFE00707F 0x00004033 (fun w => .xor (rdField w) (rs1Field w) (rs2Field w)) ∧
  DecodesRow 0xFE00707F 0x00006033 (fun w => .or (rdField w) (rs1Field w) (rs2Field w)) ∧
  DecodesRow 0xFE00707F 0x00007033 (fun w => .and (rdField w) (rs1Field w) (rs2Field w)) ∧
  ∀ (rd rs1 rs2 : RegIdx) (s : State),
    (∃ t v, exec (.xor rd rs1 rs2) s = .next t ∧
      (∀ k < 32, v.getLsbD k = ((s.readReg rs1).getLsbD k ^^ (s.readReg rs2).getLsbD k)) ∧
      WroteReg s t rd v (s.pc + 4)) ∧
    (∃ t v, exec (.or rd rs1 rs2) s = .next t ∧
      (∀ k < 32, v.getLsbD k = ((s.readReg rs1).getLsbD k || (s.readReg rs2).getLsbD k)) ∧
      WroteReg s t rd v (s.pc + 4)) ∧
    (∃ t v, exec (.and rd rs1 rs2) s = .next t ∧
      (∀ k < 32, v.getLsbD k = ((s.readReg rs1).getLsbD k && (s.readReg rs2).getLsbD k)) ∧
      WroteReg s t rd v (s.pc + 4))

/-- Rules R113, R117 and R118: the amount is the low 5 bits of the second source. -/
def Obligations.ShiftRegisterResult : Prop :=
  DecodesRow 0xFE00707F 0x00001033 (fun w => .sll (rdField w) (rs1Field w) (rs2Field w)) ∧
  DecodesRow 0xFE00707F 0x00005033 (fun w => .srl (rdField w) (rs1Field w) (rs2Field w)) ∧
  DecodesRow 0xFE00707F 0x40005033 (fun w => .sra (rdField w) (rs1Field w) (rs2Field w)) ∧
  ∀ (rd rs1 rs2 : RegIdx) (s : State),
    (∃ t v, exec (.sll rd rs1 rs2) s = .next t ∧
      v.toNat = (s.readReg rs1).toNat * 2 ^ ((s.readReg rs2).toNat % 32) % 2 ^ 32 ∧ WroteReg s t rd v (s.pc + 4)) ∧
    (∃ t v, exec (.srl rd rs1 rs2) s = .next t ∧
      v.toNat = (s.readReg rs1).toNat / 2 ^ ((s.readReg rs2).toNat % 32) ∧ WroteReg s t rd v (s.pc + 4)) ∧
    (∃ t v, exec (.sra rd rs1 rs2) s = .next t ∧
      v.toInt = (s.readReg rs1).toInt / 2 ^ ((s.readReg rs2).toNat % 32) ∧ WroteReg s t rd v (s.pc + 4))

/-- Rule R125. -/
def Obligations.LuiResult : Prop :=
  DecodesRow 0x0000007F 0x00000037 (fun w => .lui (rdField w) (w &&& 0xFFFFF000)) ∧
  ∀ (rd : RegIdx) (imm : Word) (s : State), ∃ t, exec (.lui rd imm) s = .next t ∧ WroteReg s t rd imm (s.pc + 4)

/-- Rule R126: the pc that is added is the value before the instruction. -/
def Obligations.AuipcResult : Prop :=
  DecodesRow 0x0000007F 0x00000017 (fun w => .auipc (rdField w) (w &&& 0xFFFFF000)) ∧
  ∀ (rd : RegIdx) (imm : Word) (s : State), ∃ t v, exec (.auipc rd imm) s = .next t ∧
    v.toNat = (s.pc.toNat + imm.toNat) % 2 ^ 32 ∧ WroteReg s t rd v (s.pc + 4)

/-- Rule R130: link and target are both from the address of this JAL. -/
def Obligations.JalResult : Prop :=
  DecodesRow 0x0000007F 0x0000006F (fun w => .jal (rdField w) (immJ w)) ∧
  ∀ (rd : RegIdx) (imm : Word) (s : State), ∃ t link target, exec (.jal rd imm) s = .next t ∧
    link.toNat = (s.pc.toNat + 4) % 2 ^ 32 ∧ target.toNat = (s.pc.toNat + imm.toNat) % 2 ^ 32 ∧
    WroteReg s t rd link target

/-- Rule R131: the target is from the old value of `rs1`, its bit 0 cleared and no other bit; another `funct3` is refused.
-/
def Obligations.JalrResult : Prop :=
  DecodesRow 0x0000707F 0x00000067 (fun w => .jalr (rdField w) (rs1Field w) (immI w)) ∧
  (∀ w : Word, w &&& 0x0000007F = 0x00000067 → w.toNat / 2 ^ 12 % 8 ≠ 0 → decode w = .error .unknownFunction) ∧
  ∀ (rd rs1 : RegIdx) (imm : Word) (s : State), ∃ t link target, exec (.jalr rd rs1 imm) s = .next t ∧
    link.toNat = (s.pc.toNat + 4) % 2 ^ 32 ∧
    target.toNat = ((s.readReg rs1).toNat + imm.toNat) % 2 ^ 32 / 2 * 2 ∧ WroteReg s t rd link target

/-- Rules R136 and R137 (with R135). -/
def Obligations.BeqBneResult : Prop :=
  DecodesRow 0x0000707F 0x00000063 (fun w => .beq (rs1Field w) (rs2Field w) (immB w)) ∧
  DecodesRow 0x0000707F 0x00001063 (fun w => .bne (rs1Field w) (rs2Field w) (immB w)) ∧
  ∀ (rs1 rs2 : RegIdx) (imm : Word) (s : State),
    (∃ t, exec (.beq rs1 rs2 imm) s = .next t ∧
      WentTo s t (if s.readReg rs1 = s.readReg rs2 then s.pc + imm else s.pc + 4)) ∧
    (∃ t, exec (.bne rs1 rs2 imm) s = .next t ∧
      WentTo s t (if s.readReg rs1 ≠ s.readReg rs2 then s.pc + imm else s.pc + 4))

/-- Rules R138 and R139 (with R135): the signed comparisons. -/
def Obligations.BltBgeResult : Prop :=
  DecodesRow 0x0000707F 0x00004063 (fun w => .blt (rs1Field w) (rs2Field w) (immB w)) ∧
  DecodesRow 0x0000707F 0x00005063 (fun w => .bge (rs1Field w) (rs2Field w) (immB w)) ∧
  ∀ (rs1 rs2 : RegIdx) (imm : Word) (s : State),
    (∃ t, exec (.blt rs1 rs2 imm) s = .next t ∧
      WentTo s t (if (s.readReg rs1).toInt < (s.readReg rs2).toInt then s.pc + imm else s.pc + 4)) ∧
    (∃ t, exec (.bge rs1 rs2 imm) s = .next t ∧
      WentTo s t (if (s.readReg rs1).toInt ≥ (s.readReg rs2).toInt then s.pc + imm else s.pc + 4))

/-- Rules R140 and R141 (with R135): the unsigned comparisons. -/
def Obligations.BltuBgeuResult : Prop :=
  DecodesRow 0x0000707F 0x00006063 (fun w => .bltu (rs1Field w) (rs2Field w) (immB w)) ∧
  DecodesRow 0x0000707F 0x00007063 (fun w => .bgeu (rs1Field w) (rs2Field w) (immB w)) ∧
  ∀ (rs1 rs2 : RegIdx) (imm : Word) (s : State),
    (∃ t, exec (.bltu rs1 rs2 imm) s = .next t ∧
      WentTo s t (if (s.readReg rs1).toNat < (s.readReg rs2).toNat then s.pc + imm else s.pc + 4)) ∧
    (∃ t, exec (.bgeu rs1 rs2 imm) s = .next t ∧
      WentTo s t (if (s.readReg rs1).toNat ≥ (s.readReg rs2).toNat then s.pc + imm else s.pc + 4))

/-- Rule R146: LW in bounds completes with the little-endian word; out of bounds it raises, and a run stops in the state
before it. -/
def Obligations.LwResult : Prop :=
  DecodesRow 0x0000707F 0x00002003 (fun w => .lw (rdField w) (rs1Field w) (immI w)) ∧
  ∀ (rd rs1 : RegIdx) (imm : Word) (s : State),
    ((effAddr rs1 imm s).toNat = ((s.readReg rs1).toNat + imm.toNat) % 2 ^ 32) ∧
    ((effAddr rs1 imm s).toNat + 4 ≤ s.cfg.memSize → ∃ t v, exec (.lw rd rs1 imm) s = .next t ∧
      v.toNat = (s.mem.readByte (effAddr rs1 imm s).toNat).toNat +
        2 ^ 8 * (s.mem.readByte ((effAddr rs1 imm s).toNat + 1)).toNat +
        2 ^ 16 * (s.mem.readByte ((effAddr rs1 imm s).toNat + 2)).toNat +
        2 ^ 24 * (s.mem.readByte ((effAddr rs1 imm s).toNat + 3)).toNat ∧
      WroteReg s t rd v (s.pc + 4)) ∧
    ((effAddr rs1 imm s).toNat + 4 > s.cfg.memSize →
      exec (.lw rd rs1 imm) s = .fault (.raised (.outOfBoundsMemoryAccess (effAddr rs1 imm s))) ∧
      ∀ w, StandsAtPc w s → decode w = .ok (.lw rd rs1 imm) →
        StopsFaulted 1 s (.outOfBoundsMemoryAccess (effAddr rs1 imm s)) s)

/-- Rule R147: SW in bounds completes with the four bytes stored and nothing else changed but the pc; out of bounds it
raises, and a run stops in the state before it. The premise on the Memory is kept by every step (StepKeepsInvariant). -/
def Obligations.SwResult : Prop :=
  DecodesRow 0x0000707F 0x00002023 (fun w => .sw (rs2Field w) (rs1Field w) (immS w)) ∧
  ∀ (rs2 rs1 : RegIdx) (imm : Word) (s : State),
    ((effAddr rs1 imm s).toNat = ((s.readReg rs1).toNat + imm.toNat) % 2 ^ 32) ∧
    (s.mem.wf → (effAddr rs1 imm s).toNat + 4 ≤ s.cfg.memSize → ∃ t, exec (.sw rs2 rs1 imm) s = .next t ∧
      StoredWord s t (effAddr rs1 imm s).toNat (s.readReg rs2) (s.pc + 4)) ∧
    ((effAddr rs1 imm s).toNat + 4 > s.cfg.memSize →
      exec (.sw rs2 rs1 imm) s = .fault (.raised (.outOfBoundsMemoryAccess (effAddr rs1 imm s))) ∧
      ∀ w, StandsAtPc w s → decode w = .ok (.sw rs2 rs1 imm) →
        StopsFaulted 1 s (.outOfBoundsMemoryAccess (effAddr rs1 imm s)) s)

/-- Rule R148, which the spec marks as derived: the two immediate assemblers agree on every offset, and a load after a
store with the same operands returns the stored value. -/
def Obligations.StoreAndLoadOffsetsAgree : Prop :=
  ∀ (rd rs1 rs2 : RegIdx) (k : Word), immWf12 k →
    immI (encode (.lw rd rs1 k)) = k ∧ immS (encode (.sw rs2 rs1 k)) = k ∧
    ∀ s : State, s.mem.wf → (effAddr rs1 k s).toNat + 4 ≤ s.cfg.memSize →
      ∃ t u, exec (.sw rs2 rs1 k) s = .next t ∧ exec (.lw rd rs1 k) t = .next u ∧
        RegWritten t u rd (s.readReg rs2)

/-- Rule R84's example, which the spec marks as derived, the canonical NOP: under either policy `addi x0, x0, 0` changes
the pc and nothing else. -/
def Obligations.NopOnlyAdvancesPc : Prop :=
  ∀ s : State, exec (.addi 0 0 0) s = .next (s.setPc (s.pc + 4))

/-! The whole machine. -/

/-- Rule R28: the pc of every instruction: the next one's, in its table's words, when it completes; and when it does not,
it raises an error, and the run stops in the state before it. -/
def Obligations.NextPcFollowsTable : Prop :=
  ∀ (i : Instr) (s : State),
    (∃ t, exec i s = .next t ∧ t.pc =
      match i with
      | .jal _ imm => s.pc + imm
      | .jalr _ rs1 imm => (s.readReg rs1 + imm) &&& 0xFFFFFFFE
      | .beq rs1 rs2 imm => if s.readReg rs1 = s.readReg rs2 then s.pc + imm else s.pc + 4
      | .bne rs1 rs2 imm => if s.readReg rs1 ≠ s.readReg rs2 then s.pc + imm else s.pc + 4
      | .blt rs1 rs2 imm => if (s.readReg rs1).toInt < (s.readReg rs2).toInt then s.pc + imm else s.pc + 4
      | .bge rs1 rs2 imm => if (s.readReg rs2).toInt ≤ (s.readReg rs1).toInt then s.pc + imm else s.pc + 4
      | .bltu rs1 rs2 imm => if (s.readReg rs1).toNat < (s.readReg rs2).toNat then s.pc + imm else s.pc + 4
      | .bgeu rs1 rs2 imm => if (s.readReg rs2).toNat ≤ (s.readReg rs1).toNat then s.pc + imm else s.pc + 4
      | _ => s.pc + 4) ∨
    ∃ e, exec i s = .fault (.raised e) ∧
      ∀ w, StandsAtPc w s → decode w = .ok i → StopsFaulted 1 s e s

/-- The frame of all 28 instructions: a completing instruction changes no register but its `rd` (rule R26, which the spec
marks as derived), no byte of memory but, for SW, the four at its effective address (rules R34, R45), and neither the
parameters nor the harness's program and input (rules R23, R198). The premise on the Memory is kept by every step
(StepKeepsInvariant). -/
def Obligations.OnlyNamedRegisterAndStoreChange : Prop :=
  ∀ (i : Instr) (s t : State), exec i s = .next t →
    (∀ r, i.rd? ≠ some r → t.readReg r = s.readReg r) ∧ SameHarness s t ∧
    ((∀ rs2 rs1 imm, i ≠ .sw rs2 rs1 imm) → SameMem s t) ∧
    (∀ rs2 rs1 imm, i = .sw rs2 rs1 imm → s.mem.wf →
      ∀ a, ¬ ((effAddr rs1 imm s).toNat ≤ a ∧ a < (effAddr rs1 imm s).toNat + 4) →
        t.mem.readByte a = s.mem.readByte a)

/-- No instruction reads a register its fields do not name as a source (rule R26, which the spec marks as derived): a
different value in such a register makes no difference but in that register itself, and none at all when the instruction
overwrites it. -/
def Obligations.UnnamedRegistersHaveNoInfluence : Prop :=
  ∀ (i : Instr) (s : State) (k : RegIdx) (v : Word), k ∉ i.sources →
    exec i (s.writeReg k v) = mapNext (fun t => if i.rd? = some k then t else t.writeReg k v) (exec i s)

/-- An instruction that does not name register 0 does the same under both register-0 policies (rules R21, R22, R23). -/
def Obligations.PolicyMattersOnlyThroughRegisterZero : Prop :=
  ∀ (i : Instr) (s : State) (p : X0Policy), 0 ∉ i.sources → i.rd? ≠ some 0 →
    exec i (withPolicy p s) = mapNext (withPolicy p) (exec i s)

/-- Under `hardwired` nothing of the stored entry of register 0 reaches any other part of the machine (rules R21, R22; the
stored entry itself is the model's representation, log entry 5). -/
def Obligations.HardwiredZeroSlotIsInvisible : Prop :=
  ∀ (i : Instr) (s : State) (v : Word), s.cfg.x0Policy = .hardwired →
    exec i (withZeroSlot v s) = mapNext (withZeroSlot v) (exec i s)

/-- Rule R169, which the spec marks as derived: which instruction or operation can raise what. -/
def Obligations.WhoRaisesWhat : Prop :=
  (∀ (w : Word) (s : State) (r : DecodeReason), decode w = .error r →
    stepWord w s = .fault (.raised (.decodeNotImplemented r))) ∧
  (∀ (i : Instr) (s : State), (∀ rd rs1 imm, i ≠ .lw rd rs1 imm) → (∀ rs2 rs1 imm, i ≠ .sw rs2 rs1 imm) →
    ∃ t, exec i s = .next t) ∧
  (∀ (i : Instr) (s : State), (∃ t, exec i s = .next t) ∨
    ∃ a, exec i s = .fault (.raised (.outOfBoundsMemoryAccess a))) ∧
  (∀ (c : HarnessCall) (s : State) (e : CoreError), (access c s).2 = .error e →
    match c with
    | .read n => 31 < n ∧ e = .invalidRegisterIndex n
    | .write n _ => 31 < n ∧ e = .invalidRegisterIndex n
    | .loadWord a => e = .outOfBoundsMemoryAccess a
    | .storeWord a _ => e = .outOfBoundsMemoryAccess a
    | .readPC => False
    | .writePC _ => False)

/-- Rule R172: an error, of a step or of an accessor call, leaves the machine as it was; the same step taken again in that
state raises the same error again. -/
def Obligations.ErrorsLeaveStateUnchanged : Prop :=
  (∀ (n : Nat) (w : Word) (s : State) (e : CoreError), StandsAtPc w s → stepWord w s = .fault (.raised e) →
    StopsFaulted (n + 1) s e s) ∧
  (∀ (n : Nat) (s t : State) (e : CoreError), StopsFaulted n s e t → step t = .fault (.raised e)) ∧
  (∀ (c : HarnessCall) (s : State) (e : CoreError), (access c s).2 = .error e → (access c s).1 = s)

/-- A step runs the instruction it decodes: the word on the input, taken from it, or else the word of the program at the
pc (rules R193, R195, R198). The model adds nothing around `exec` (log entry 4 for the input's turn). -/
def Obligations.StepExecutesDecodedInstruction : Prop :=
  ∀ (s : State) (w : Word) (i : Instr), decode w = .ok i →
    (s.presented = some w → step s = exec i { s with presented := none }) ∧
    (s.presented = none → s.pc.toNat % 4 = 0 → s.prog[s.pc.toNat / 4]? = some w → step s = exec i s)

/-- Rule R199: one turn of the reference harness's loop, and that a run which began with nothing on the
input and ended normally ended where no word of the program stands. -/
def Obligations.RunLoopFollowsHarness : Prop :=
  (∀ (n : Nat) (s : State), s.presented = none →
    ((s.pc.toNat % 4 ≠ 0 ∨ s.prog.length ≤ s.pc.toNat / 4) → run (n + 1) s = .endOfProgram s) ∧
    (∀ w, s.pc.toNat % 4 = 0 → s.prog[s.pc.toNat / 4]? = some w →
      (∀ t, stepWord w s = .next t → run (n + 1) s = run n t) ∧
      (∀ e, stepWord w s = .fault (.raised e) → run (n + 1) s = .faulted e s))) ∧
  (∀ (n : Nat) (s t : State), s.presented = none → EndsNormally n s t →
    t.pc.toNat % 4 ≠ 0 ∨ t.prog.length ≤ t.pc.toNat / 4)

/-- A run changes neither the parameters nor the program (rules R23, R190, R198), and ends in a state that meets the
invariant when it starts in one. -/
def Obligations.RunKeepsProgramAndInvariant : Prop :=
  ∀ (n : Nat) (s t : State), (EndsNormally n s t ∨ ∃ e, StopsFaulted n s e t) →
    t.cfg = s.cfg ∧ t.prog = s.prog ∧ (s.Inv → t.Inv)

/-- A verdict reached within a bound is the verdict under every larger bound (rules R200, R202): only the exhausted bound
says nothing. -/
def Obligations.LargerBoundKeepsVerdict : Prop :=
  ∀ (n k : Nat) (s t : State),
    (EndsNormally n s t → EndsNormally (n + k) s t) ∧
    (∀ e, StopsFaulted n s e t → StopsFaulted (n + k) s e t)

/-- Rule R167: an index above 31 is reported and changes nothing, an index up to 31 is not, and no instruction reports
one. -/
def Obligations.AccessorsCheckIndex : Prop :=
  (∀ (n : Nat) (v : Word) (s : State), 31 < n →
    access (.read n) s = (s, .error (.invalidRegisterIndex n)) ∧
    access (.write n v) s = (s, .error (.invalidRegisterIndex n))) ∧
  (∀ (n : Nat) (v : Word) (s : State), n ≤ 31 →
    (∃ x, (access (.read n) s).2 = .ok (some x)) ∧ (access (.write n v) s).2 = .ok none) ∧
  (∀ (i : Instr) (s : State) (n : Nat), exec i s ≠ .fault (.raised (.invalidRegisterIndex n)))

/-- The rest of the accessor port (rules R27, R35): `readPC` answers the pc and changes nothing, `writePC` takes any 32-bit
value and changes the pc alone, and `write` changes its register alone. `loadWord` and `storeWord` stand in
WordReadIsLittleEndian and WordWriteStoresFourBytes. -/
def Obligations.AccessorsChangeOnlyTheirTarget : Prop :=
  (∀ s : State, access .readPC s = (s, .ok (some s.pc))) ∧
  (∀ (v : Word) (s : State), ∃ t, access (.writePC v) s = (t, .ok none) ∧ WentTo s t v) ∧
  (∀ (n : Nat) (h : n < 32) (v : Word) (s : State), ∃ t, access (.write n v) s = (t, .ok none) ∧
    WroteReg s t ⟨n, h⟩ v s.pc)

/-- Rules R36 and R190, the spec's own choice: after a reset every register and every byte is 0 and the pc is 0, and the
parameters are as before. The state the host starts from has the same values; its parameters are log entry 2 and not
stated here. -/
def Obligations.ResetClearsTheTriple : Prop :=
  (∀ s : State, (∀ r, s.afterReset.readReg r = 0) ∧ s.afterReset.pc = 0 ∧
    (∀ a, s.afterReset.mem.readByte a = 0) ∧ s.afterReset.cfg = s.cfg) ∧
  (∀ r, State.reset.readReg r = 0) ∧ State.reset.pc = 0 ∧ ∀ a, State.reset.mem.readByte a = 0

/-- The invariant holds after reset under every configuration in its range, and in `State.reset`. The invariant's form is
the model's (log entries 5 and 6). -/
def Obligations.ResetMeetsInvariant : Prop :=
  (∀ c : Config, c.wf → (State.resetOf c).Inv) ∧ State.reset.Inv ∧ ∀ s : State, s.cfg.wf → s.afterReset.Inv

/-- Every step keeps the invariant: the canonical Memory inside `MEM_SIZE`, the parameters in range, the hard-wired
register's entry 0. -/
def Obligations.StepKeepsInvariant : Prop :=
  ∀ s t : State, s.Inv → step s = .next t → t.Inv

/-- Every accessor call keeps the invariant, whatever it answers. -/
def Obligations.AccessorsKeepInvariant : Prop :=
  ∀ (c : HarnessCall) (s : State), s.Inv → (access c s).1.Inv

/-- From an even pc every step goes to an even pc: the immediates of JAL and the branches are even, JALR clears bit 0,
every other instruction adds 4 (rules R29, R76). -/
def Obligations.StepKeepsPcEven : Prop :=
  ∀ s t : State, s.pc.toNat % 2 = 0 → step s = .next t → t.pc.toNat % 2 = 0

/-- The parity of the pc changes through JALR only, and then to even (rule R29: "JAL and taken branches add an immediate
whose bit 0 is always 0, so they keep the parity of the PC"). -/
def Obligations.OnlyJalrChangesPcParity : Prop :=
  ∀ (w : Word) (i : Instr) (s t : State), decode w = .ok i → exec i s = .next t →
    t.pc.toNat % 2 = s.pc.toNat % 2 ∨ (i.mnemonic = .jalr ∧ t.pc.toNat % 2 = 0)
end

