-- ==== Sys2Proof/Laws/Decode.lean ====
section
/-! SUPPORT. The laws of the extractor, of sign extension, of the opcode lookup and of the decoder: what each answers and
when (rules R11, R60, R77, R79). -/

namespace Sys2Proof

/-- A bit of an extracted field (rule R60). -/
@[simp] theorem getLsbD_extractBits (w : Word) (lo hi i : Nat) :
    (extractBits w lo hi).getLsbD i = (decide (i < hi - lo + 1) && w.getLsbD (lo + i)) := by
  simp [extractBits]

/-- A bit of a sign-extended field: its own bit inside the field, its top bit above (rule R11). -/
theorem getLsbD_sext {n : Nat} (v : BitVec n) (i : Nat) (hi : i < 32) :
    (sext v).getLsbD i = if i < n then v.getLsbD i else v.getLsbD (n - 1) := by
  unfold sext
  rw [BitVec.getLsbD_signExtend]
  simp [hi, BitVec.msb_eq_getLsbD_last]

/-- Sign extension keeps the signed reading (rule R11). -/
theorem toInt_sext {n : Nat} (v : BitVec n) (hn : n ≤ 32) : (sext v).toInt = v.toInt := by
  unfold sext
  exact BitVec.toInt_signExtend_of_le hn

/-- A field depends on its own bits only: any mask that keeps them keeps the field. -/
theorem extractBits_and (w mask : Word) (lo hi : Nat)
    (h : ∀ j, j < hi - lo + 1 → mask.getLsbD (lo + j) = true) :
    extractBits (w &&& mask) lo hi = extractBits w lo hi := by
  apply BitVec.eq_of_getLsbD_eq
  intro i hi'
  simp [h i hi']

/-- The opcode lookup finds exactly the nine opcodes (rule R77). -/
theorem lookupOpcode_eq_some (b : BitVec 7) (o : Opcode) : lookupOpcode b = some o ↔ b = o.bits := by
  unfold lookupOpcode
  constructor
  · intro h
    split_ifs at h <;> (injection h with h; subst h; assumption)
  · rintro rfl
    cases o <;> decide

theorem lookupOpcode_eq_none (b : BitVec 7) : lookupOpcode b = none ↔ ∀ o : Opcode, b ≠ o.bits := by
  rw [Option.eq_none_iff_forall_ne_some]
  exact forall_congr' fun o => (lookupOpcode_eq_some b o).not

/-- A word decodes exactly when its low bits are `11`, its opcode is known and the function fields select (rule R79). -/
theorem decode_eq_ok (w : Word) (i : Instr) :
    decode w = .ok i ↔ extractBits w 0 1 = 0b11 ∧ ∃ o : Opcode, extractBits w 0 6 = o.bits ∧ select o w = some i := by
  unfold decode
  by_cases h0 : extractBits w 0 1 = 0b11
  · rw [if_neg (not_not.2 h0)]
    rcases hl : lookupOpcode (extractBits w 0 6) with _ | o
    · refine ⟨fun h => (by cases h), fun ⟨_, o, ho, _⟩ => ?_⟩
      exact absurd ho ((lookupOpcode_eq_none _).1 hl o)
    · have ho := (lookupOpcode_eq_some _ _).1 hl
      rcases hs : select o w with _ | j
      · simp only [hs]
        refine ⟨fun h => (by cases h), fun ⟨_, o', ho', hs'⟩ => ?_⟩
        have : some o' = some o := by rw [← (lookupOpcode_eq_some _ _).2 ho', hl]
        injection this with this
        rw [this, hs] at hs'; cases hs'
      · simp only [hs]
        refine ⟨fun h => ⟨h0, o, ho, ?_⟩, fun ⟨_, o', ho', hs'⟩ => ?_⟩
        · injection h with h; rw [hs, h]
        · have : some o' = some o := by rw [← (lookupOpcode_eq_some _ _).2 ho', hl]
          injection this with this
          rw [this, hs] at hs'
          injection hs' with hs'; rw [hs']
  · rw [if_pos h0]
    exact ⟨fun h => (by cases h), fun h => absurd h.1 h0⟩

end Sys2Proof
end

