-- ==== Sys2Proof/Laws/Memory.lean ====
section
/-! SUPPORT. The laws of the Memory: every write keeps the canonical form, a read after a write to the same place gives
the byte written, a write leaves every other byte alone, and the same for words (rules R41 to R49, R58). -/

namespace Sys2Proof.Machine

@[simp] theorem readByte_nil (a : Nat) : Memory.readByte [] a = unlistedByte := rfl

theorem readByte_cons (k : Nat) (v : Byte) (m : Memory) (a : Nat) :
    Memory.readByte ((k, v) :: m) a = if k = a then v else Memory.readByte m a := rfl

/-- An address below every listed one is not listed. -/
theorem readByte_of_lt (m : Memory) (a : Nat) (h : ∀ c ∈ m, a < c.1) : Memory.readByte m a = unlistedByte := by
  induction m with
  | nil => rfl
  | cons c m ih =>
    have hc : a < c.1 := h c (by simp)
    have hm := ih (fun d hd => h d (by simp [hd]))
    obtain ⟨k, v⟩ := c
    rw [readByte_cons, if_neg (by simp at hc; omega), hm]

theorem readByte_consCell (m : Memory) (a x : Nat) (b : Byte) (h : ∀ c ∈ m, a < c.1) :
    Memory.readByte (Memory.consCell a b m) x = if x = a then b else Memory.readByte m x := by
  unfold Memory.consCell
  by_cases hb : b = unlistedByte
  · rw [if_pos hb]
    by_cases hx : x = a
    · rw [if_pos hx, hx, hb, readByte_of_lt m a h]
    · rw [if_neg hx]
  · rw [if_neg hb, readByte_cons]
    by_cases hx : x = a
    · rw [if_pos hx, if_pos hx.symm]
    · rw [if_neg hx, if_neg (Ne.symm hx)]

/-- The addresses a write can add are the written one only. -/
theorem mem_writeByte (m : Memory) (a : Nat) (b : Byte) (c : Host.Cell) (hc : c ∈ Memory.writeByte m a b) :
    c = (a, b) ∧ b ≠ unlistedByte ∨ c ∈ m := by
  induction m with
  | nil =>
    simp only [Memory.writeByte, Memory.consCell] at hc
    split at hc <;> simp_all
  | cons cell m ih =>
    obtain ⟨k, v⟩ := cell
    simp only [Memory.writeByte, Memory.consCell] at hc
    split at hc
    · split at hc <;> simp_all
    · split at hc
      · split at hc <;> simp_all
        rcases hc with h | h <;> simp [h]
      · rcases List.mem_cons.1 hc with h | h
        · simp [h]
        · rcases ih h with h | h <;> simp [h]

theorem wf_tail {c : Host.Cell} {m : Memory} (h : Memory.wf (c :: m)) : Memory.wf m :=
  ⟨h.1.tail, fun d hd => h.2 d (by simp [hd])⟩

theorem wf_head_lt {c : Host.Cell} {m : Memory} (h : Memory.wf (c :: m)) : ∀ d ∈ m, c.1 < d.1 :=
  fun _ hd => List.rel_of_pairwise_cons h.1 hd

theorem wf_consCell {m : Memory} {a : Nat} {b : Byte} (h : m.wf) (ha : ∀ c ∈ m, a < c.1) :
    (Memory.consCell a b m).wf := by
  unfold Memory.consCell
  split
  · exact h
  · rename_i hb
    refine ⟨List.pairwise_cons.2 ⟨fun c hc => ha c hc, h.1⟩, ?_⟩
    intro c hc
    rcases List.mem_cons.1 hc with h' | h'
    · rw [h']; exact hb
    · exact h.2 c h'

/-- A byte write keeps the canonical form. -/
theorem writeByte_wf (m : Memory) (a : Nat) (b : Byte) (h : m.wf) : (m.writeByte a b).wf := by
  induction m with
  | nil => exact wf_consCell h (by simp)
  | cons d m ih =>
    obtain ⟨k, v⟩ := d
    have hlt := wf_head_lt h
    simp only [Memory.writeByte]
    split
    · rename_i hak
      refine wf_consCell h ?_
      intro c hc
      rcases List.mem_cons.1 hc with h' | h'
      · rw [h']; exact hak
      · exact hak.trans (hlt c h')
    · split
      · rename_i hak
        subst hak
        exact wf_consCell (wf_tail h) hlt
      · rename_i h1 h2
        have hw := ih (wf_tail h)
        refine ⟨List.pairwise_cons.2 ⟨fun c hc => ?_, hw.1⟩, ?_⟩
        · rcases mem_writeByte m a b c hc with ⟨h', -⟩ | h'
          · rw [h']; show k < a; omega
          · exact hlt c h'
        · intro c hc
          rcases List.mem_cons.1 hc with h' | h'
          · rw [h']; exact h.2 (k, v) (by simp)
          · exact hw.2 c h'

/-- A byte read after a byte write. -/
theorem readByte_writeByte (m : Memory) (a x : Nat) (b : Byte) (h : m.wf) :
    (m.writeByte a b).readByte x = if x = a then b else m.readByte x := by
  induction m with
  | nil => exact readByte_consCell [] a x b (by simp)
  | cons d m ih =>
    obtain ⟨k, v⟩ := d
    have hlt := wf_head_lt h
    simp only [Memory.writeByte]
    split
    · rename_i hak
      refine readByte_consCell _ a x b ?_
      intro c hc
      rcases List.mem_cons.1 hc with h' | h'
      · rw [h']; exact hak
      · exact hak.trans (hlt c h')
    · split
      · rename_i hak
        subst hak
        rw [readByte_consCell m a x b hlt, readByte_cons]
        by_cases hx : x = a
        · simp [hx]
        · simp [hx, Ne.symm hx]
      · rename_i h1 h2
        rw [readByte_cons, readByte_cons, ih (wf_tail h)]
        by_cases hx : x = a
        · have : ¬ k = x := by omega
          simp [hx]; omega
        · simp [hx]

/-- A word write keeps the canonical form. -/
theorem writeWord_wf (m : Memory) (a : Nat) (v : Word) (h : m.wf) : (m.writeWord a v).wf :=
  writeByte_wf _ _ _ (writeByte_wf _ _ _ (writeByte_wf _ _ _ (writeByte_wf _ _ _ h)))

/-- The addresses a word write can add are the four of the word. -/
theorem mem_writeWord (m : Memory) (a : Nat) (v : Word) (c : Host.Cell) (hc : c ∈ m.writeWord a v) :
    a ≤ c.1 ∧ c.1 < a + 4 ∨ c ∈ m := by
  unfold Memory.writeWord at hc
  rcases mem_writeByte _ _ _ _ hc with ⟨h, -⟩ | hc
  · left; simp [h]
  rcases mem_writeByte _ _ _ _ hc with ⟨h, -⟩ | hc
  · left; simp [h]
  rcases mem_writeByte _ _ _ _ hc with ⟨h, -⟩ | hc
  · left; simp [h]
  rcases mem_writeByte _ _ _ _ hc with ⟨h, -⟩ | hc
  · left; simp [h]
  · exact .inr hc

/-- A byte read after a word write: the byte of the word inside its four addresses, the old byte outside. -/
theorem readByte_writeWord (m : Memory) (a x : Nat) (v : Word) (h : m.wf) :
    (m.writeWord a v).readByte x =
      if a ≤ x ∧ x < a + 4 then byteOfWord v (x - a) else m.readByte x := by
  unfold Memory.writeWord
  have h0 := writeByte_wf m a (byteOfWord v 0) h
  have h1 := writeByte_wf _ (a + 1) (byteOfWord v 1) h0
  have h2 := writeByte_wf _ (a + 2) (byteOfWord v 2) h1
  rw [readByte_writeByte _ _ _ _ h2, readByte_writeByte _ _ _ _ h1, readByte_writeByte _ _ _ _ h0,
    readByte_writeByte _ _ _ _ h]
  by_cases hx : a ≤ x ∧ x < a + 4
  · rw [if_pos hx]
    obtain ⟨k, hk, rfl⟩ : ∃ k, k < 4 ∧ x = a + k := ⟨x - a, by omega, by omega⟩
    interval_cases k <;> simp
  · rw [if_neg hx, if_neg (by omega), if_neg (by omega), if_neg (by omega), if_neg (by omega)]

/-- The bits of a word put together from its bytes. -/
theorem getLsbD_wordOfBytes (b0 b1 b2 b3 : Byte) (i : Nat) :
    (wordOfBytes b0 b1 b2 b3).getLsbD i =
      if i < 8 then b0.getLsbD i else if i < 16 then b1.getLsbD (i - 8)
      else if i < 24 then b2.getLsbD (i - 16) else b3.getLsbD (i - 24) := by
  show BitVec.getLsbD (w := 8 + 8 + 8 + 8) (b3 ++ b2 ++ b1 ++ b0) i = _
  simp only [BitVec.getLsbD_append, Nat.sub_sub]
  repeat' split
  all_goals first | rfl | omega

/-- The bits of a byte of a word. -/
theorem getLsbD_byteOfWord (v : Word) (k i : Nat) : (byteOfWord v k).getLsbD i = (decide (i < 8) && v.getLsbD (8 * k + i)) := by
  simp [byteOfWord]

/-- A word put together from its bytes, as a number. -/
theorem toNat_wordOfBytes (b0 b1 b2 b3 : Byte) :
    (wordOfBytes b0 b1 b2 b3).toNat = b0.toNat + 2 ^ 8 * b1.toNat + 2 ^ 16 * b2.toNat + 2 ^ 24 * b3.toNat := by
  show BitVec.toNat (w := 8 + 8 + 8 + 8) (b3 ++ b2 ++ b1 ++ b0) = _
  simp only [BitVec.toNat_append]
  have h0 := b0.isLt
  have h1 := b1.isLt
  have h2 := b2.isLt
  have h3 := b3.isLt
  rw [← Nat.shiftLeft_add_eq_or_of_lt h0, ← Nat.shiftLeft_add_eq_or_of_lt h1, ← Nat.shiftLeft_add_eq_or_of_lt h2]
  simp only [Nat.shiftLeft_eq]
  omega

/-- A byte of a word, as a number. -/
theorem toNat_byteOfWord (v : Word) (k : Nat) : (byteOfWord v k).toNat = v.toNat / 2 ^ (8 * k) % 2 ^ 8 := by
  simp [byteOfWord, Nat.shiftRight_eq_div_pow]

/-- The bytes of a word put the word together again. -/
theorem wordOfBytes_byteOfWord (v : Word) :
    wordOfBytes (byteOfWord v 0) (byteOfWord v 1) (byteOfWord v 2) (byteOfWord v 3) = v := by
  apply BitVec.eq_of_toNat_eq
  have := v.isLt
  simp only [toNat_wordOfBytes, toNat_byteOfWord]
  omega

/-- The bytes of a word put together. -/
theorem byteOfWord_wordOfBytes (b0 b1 b2 b3 : Byte) :
    byteOfWord (wordOfBytes b0 b1 b2 b3) 0 = b0 ∧ byteOfWord (wordOfBytes b0 b1 b2 b3) 1 = b1 ∧
      byteOfWord (wordOfBytes b0 b1 b2 b3) 2 = b2 ∧ byteOfWord (wordOfBytes b0 b1 b2 b3) 3 = b3 := by
  have h0 := b0.isLt
  have h1 := b1.isLt
  have h2 := b2.isLt
  have h3 := b3.isLt
  refine ⟨?_, ?_, ?_, ?_⟩ <;> apply BitVec.eq_of_toNat_eq <;>
    simp only [toNat_wordOfBytes, toNat_byteOfWord] <;> omega

/-- A word read after the same word write. -/
theorem readWord_writeWord (m : Memory) (a : Nat) (v : Word) (h : m.wf) : (m.writeWord a v).readWord a = v := by
  unfold Memory.readWord
  rw [readByte_writeWord m a a v h, readByte_writeWord m a (a + 1) v h, readByte_writeWord m a (a + 2) v h,
    readByte_writeWord m a (a + 3) v h]
  simp [wordOfBytes_byteOfWord]

/-- Two canonical memories with the same bytes are the same memory. -/
theorem eq_of_readByte_eq (m n : Memory) (hm : m.wf) (hn : n.wf) (h : ∀ a, m.readByte a = n.readByte a) : m = n := by
  induction m generalizing n with
  | nil =>
    cases n with
    | nil => rfl
    | cons d n =>
      have := h d.1
      obtain ⟨k, v⟩ := d
      rw [readByte_cons, if_pos rfl] at this
      exact absurd this.symm (hn.2 (k, v) (by simp))
  | cons c m ih =>
    obtain ⟨k, v⟩ := c
    cases n with
    | nil =>
      have := h k
      rw [readByte_cons, if_pos rfl] at this
      exact absurd this (hm.2 (k, v) (by simp))
    | cons d n =>
      obtain ⟨l, w⟩ := d
      have hkm := wf_head_lt hm
      have hln := wf_head_lt hn
      have hkl : k = l := by
        by_contra hne
        rcases Nat.lt_or_gt_of_ne hne with hlt | hlt
        · have := h k
          rw [readByte_cons, if_pos rfl, readByte_of_lt] at this
          · exact hm.2 (k, v) (by simp) this
          · intro c hc
            rcases List.mem_cons.1 hc with h' | h'
            · rw [h']; exact hlt
            · exact hlt.trans (hln c h')
        · have := h l
          rw [readByte_cons l, if_pos rfl, readByte_of_lt] at this
          · exact hn.2 (l, w) (by simp) this.symm
          · intro c hc
            rcases List.mem_cons.1 hc with h' | h'
            · rw [h']; exact hlt
            · exact hlt.trans (hkm c h')
      subst hkl
      have hvw : v = w := by have := h k; simpa [readByte_cons] using this
      subst hvw
      rw [ih n (wf_tail hm) (wf_tail hn)]
      intro a
      by_cases ha : k = a
      · subst ha
        rw [readByte_of_lt m k hkm, readByte_of_lt n k hln]
      · have := h a
        simpa [readByte_cons, ha] using this

end Sys2Proof.Machine
end

