-- ==== Sys2Proof/Laws/State.lean ====
section
/-! SUPPORT. The small lemmas of State: one per field per update, so that no later proof unfolds a record update, and the
register-file laws of rules R21 and R22. -/

namespace Sys2Proof.Machine

@[simp] theorem setPc_cfg (s : State) (v : Word) : (s.setPc v).cfg = s.cfg := rfl
@[simp] theorem setPc_regs (s : State) (v : Word) : (s.setPc v).regs = s.regs := rfl
@[simp] theorem setPc_pc (s : State) (v : Word) : (s.setPc v).pc = v := rfl
@[simp] theorem setPc_mem (s : State) (v : Word) : (s.setPc v).mem = s.mem := rfl
@[simp] theorem setPc_prog (s : State) (v : Word) : (s.setPc v).prog = s.prog := rfl
@[simp] theorem setPc_presented (s : State) (v : Word) : (s.setPc v).presented = s.presented := rfl
@[simp] theorem setPc_readReg (s : State) (v : Word) (r : RegIdx) : (s.setPc v).readReg r = s.readReg r := rfl

@[simp] theorem writeReg_cfg (s : State) (i : RegIdx) (v : Word) : (s.writeReg i v).cfg = s.cfg := by
  unfold State.writeReg; split <;> rfl
@[simp] theorem writeReg_pc (s : State) (i : RegIdx) (v : Word) : (s.writeReg i v).pc = s.pc := by
  unfold State.writeReg; split <;> rfl
@[simp] theorem writeReg_mem (s : State) (i : RegIdx) (v : Word) : (s.writeReg i v).mem = s.mem := by
  unfold State.writeReg; split <;> rfl
@[simp] theorem writeReg_prog (s : State) (i : RegIdx) (v : Word) : (s.writeReg i v).prog = s.prog := by
  unfold State.writeReg; split <;> rfl
@[simp] theorem writeReg_presented (s : State) (i : RegIdx) (v : Word) :
    (s.writeReg i v).presented = s.presented := by
  unfold State.writeReg; split <;> rfl

@[simp] theorem present_cfg (w : Word) (s : State) : (present w s).cfg = s.cfg := rfl
@[simp] theorem present_regs (w : Word) (s : State) : (present w s).regs = s.regs := rfl
@[simp] theorem present_pc (w : Word) (s : State) : (present w s).pc = s.pc := rfl
@[simp] theorem present_mem (w : Word) (s : State) : (present w s).mem = s.mem := rfl
@[simp] theorem present_prog (w : Word) (s : State) : (present w s).prog = s.prog := rfl
@[simp] theorem present_presented (w : Word) (s : State) : (present w s).presented = some w := rfl

@[simp] theorem resetOf_cfg (c : Config) : (State.resetOf c).cfg = c := rfl
@[simp] theorem resetOf_pc (c : Config) : (State.resetOf c).pc = resetPc := rfl
@[simp] theorem resetOf_mem (c : Config) : (State.resetOf c).mem = [] := rfl
@[simp] theorem resetOf_prog (c : Config) : (State.resetOf c).prog = [] := rfl
@[simp] theorem resetOf_presented (c : Config) : (State.resetOf c).presented = none := rfl

/-- Reading after writing: the written register reads the value unless it is hard-wired, every other one as before. -/
theorem readReg_writeReg (s : State) (i r : RegIdx) (v : Word) :
    (s.writeReg i v).readReg r = if r = i ∧ ¬ hardwiredZero s i then v else s.readReg r := by
  unfold State.writeReg
  by_cases hz : hardwiredZero s i
  · rw [if_pos hz, if_neg (fun h => h.2 hz)]
  · rw [if_neg hz]
    by_cases hr : r = i
    · subst hr
      simp [State.readReg, hz]
    · have hne : (i : Nat) ≠ r := fun h => hr (Fin.ext h.symm)
      simp [State.readReg, hardwiredZero, hr, hne]

/-- A hard-wired register 0 reads 0. -/
theorem readReg_hardwired (s : State) (i : RegIdx) (h : hardwiredZero s i) : s.readReg i = 0 := by
  unfold State.readReg; rw [if_pos h]

/-- A write to a hard-wired register 0 changes nothing. -/
theorem writeReg_hardwired (s : State) (i : RegIdx) (v : Word) (h : hardwiredZero s i) : s.writeReg i v = s := by
  unfold State.writeReg; rw [if_pos h]

/-- Writing back what a register holds changes nothing. -/
theorem writeReg_readReg (s : State) (i : RegIdx) : s.writeReg i (s.readReg i) = s := by
  unfold State.writeReg State.readReg
  split
  · rfl
  · simp

/-- A write to a register that is not hard-wired changes its entry and nothing else. -/
theorem writeReg_ordinary (s : State) (i : RegIdx) (v : Word) (h : ¬ hardwiredZero s i) :
    s.writeReg i v = { s with regs := s.regs.set i v } := by
  unfold State.writeReg; rw [if_neg h]

/-- A write does not change which register is hard-wired. -/
@[simp] theorem hardwiredZero_writeReg (s : State) (i j : RegIdx) (v : Word) :
    hardwiredZero (s.writeReg i v) j ↔ hardwiredZero s j := by simp [hardwiredZero]

/-- The later of two writes to one register stands. -/
theorem writeReg_writeReg (s : State) (i : RegIdx) (v w : Word) : (s.writeReg i v).writeReg i w = s.writeReg i w := by
  by_cases h : hardwiredZero s i
  · rw [writeReg_hardwired s i v h]
  · rw [writeReg_ordinary _ i w (by simpa using h), writeReg_ordinary s i v h, writeReg_ordinary s i w h]; simp

/-- Writes to different registers commute. -/
theorem writeReg_comm (s : State) (i j : RegIdx) (v w : Word) (h : i ≠ j) :
    (s.writeReg i v).writeReg j w = (s.writeReg j w).writeReg i v := by
  have hne : (i : Nat) ≠ j := fun e => h (Fin.ext e)
  by_cases hi : hardwiredZero s i
  · rw [writeReg_hardwired s i v hi, writeReg_hardwired _ i v (by simpa using hi)]
  · by_cases hj : hardwiredZero s j
    · rw [writeReg_hardwired s j w hj, writeReg_hardwired _ j w (by simpa using hj)]
    · rw [writeReg_ordinary (s.writeReg i v) j w (by simpa using hj), writeReg_ordinary (s.writeReg j w) i v (by simpa using hi),
        writeReg_ordinary s i v hi, writeReg_ordinary s j w hj]
      simp only [State.mk.injEq, true_and, and_true]
      exact Vector.set_comm _ _ hne

/-- A register write and a write of the pc commute. -/
theorem setPc_writeReg (s : State) (i : RegIdx) (v p : Word) : (s.setPc p).writeReg i v = (s.writeReg i v).setPc p := by
  by_cases h : hardwiredZero s i
  · rw [writeReg_hardwired s i v h, writeReg_hardwired (s.setPc p) i v h]
  · rw [writeReg_ordinary s i v h, writeReg_ordinary (s.setPc p) i v h]; rfl

end Sys2Proof.Machine
end

