-- ==== Sys2Proof/Laws/Ops.lean ====
section
/-! SUPPORT. One lemma per shared operation: everything it can do, for later proofs to cite instead of unfolding it. -/

namespace Sys2Proof.Machine

theorem sameRegs_refl (s : State) : SameRegs s s := fun _ => rfl
theorem sameMem_refl (s : State) : SameMem s s := fun _ => rfl
theorem sameHarness_refl (s : State) : SameHarness s s := ⟨rfl, rfl, rfl⟩

/-- `memRead` answers the word in bounds and the error outside (rule R44). -/
theorem memRead_inBounds (s : State) (a : Word) (h : inBounds s a) : memRead s a = .ok (s.mem.readWord a.toNat) := by
  unfold memRead; rw [if_pos h]

theorem memRead_outOfBounds (s : State) (a : Word) (h : ¬ inBounds s a) :
    memRead s a = .error (.outOfBoundsMemoryAccess a) := by
  unfold memRead; rw [if_neg h]

/-- `memWrite` stores the word in bounds and answers the error outside (rule R45). -/
theorem memWrite_inBounds (s : State) (a v : Word) (h : inBounds s a) :
    memWrite s a v = .ok { s with mem := s.mem.writeWord a.toNat v } := by
  unfold memWrite; rw [if_pos h]

theorem memWrite_outOfBounds (s : State) (a v : Word) (h : ¬ inBounds s a) :
    memWrite s a v = .error (.outOfBoundsMemoryAccess a) := by
  unfold memWrite; rw [if_neg h]

/-- The accessor `loadWord` is `memRead`, and changes nothing (rules R35, R44). -/
theorem access_loadWord (a : Word) (s : State) : access (.loadWord a) s = (s, (memRead s a).map some) := by
  simp only [access, accessLoadWord]
  rcases memRead s a with e | v <;> rfl

/-- The accessor `storeWord` is `memWrite` (rules R35, R45). -/
theorem access_storeWord_ok (a v : Word) (s t : State) (h : memWrite s a v = .ok t) :
    access (.storeWord a v) s = (t, .ok none) := by
  simp only [access, accessStoreWord, h]

theorem access_storeWord_error (a v : Word) (s : State) (e : CoreError) (h : memWrite s a v = .error e) :
    access (.storeWord a v) s = (s, .error e) := by
  simp only [access, accessStoreWord, h]

/-- `writeAndGo` completes: it writes the register, sets the pc, and changes nothing else. -/
theorem writeAndGo_spec (rd : RegIdx) (v target : Word) (s : State) :
    ∃ t, writeAndGo rd v target s = .next t ∧ WroteReg s t rd v target :=
  ⟨_, rfl, fun r => by simp only [setPc_readReg]; exact readReg_writeReg s rd r v, rfl,
    fun a => by simp, by simp [SameHarness]⟩

/-- `writeAndAdvance` completes: it writes the register, goes to `pc + 4`, and changes nothing else. -/
theorem writeAndAdvance_spec (rd : RegIdx) (v : Word) (s : State) :
    ∃ t, writeAndAdvance rd v s = .next t ∧ WroteReg s t rd v (s.pc + 4) :=
  writeAndGo_spec rd v s.nextPc s

/-- `branchTo` completes: it sets the pc and changes nothing else. -/
theorem branchTo_spec (taken : Bool) (target : Word) (s : State) :
    ∃ t, branchTo taken target s = .next t ∧ WentTo s t (if taken then target else s.pc + 4) :=
  ⟨_, rfl, fun _ => rfl, rfl, fun _ => rfl, rfl, rfl, rfl⟩

/-- LW in bounds completes with the word at the effective address (rule R146). -/
theorem execLw_inBounds (rd rs1 : RegIdx) (imm : Word) (s : State) (h : inBounds s (effAddr rs1 imm s)) :
    execLw rd rs1 imm s = writeAndAdvance rd (s.mem.readWord (effAddr rs1 imm s).toNat) s := by
  unfold execLw; rw [memRead_inBounds s _ h]

theorem execLw_outOfBounds (rd rs1 : RegIdx) (imm : Word) (s : State) (h : ¬ inBounds s (effAddr rs1 imm s)) :
    execLw rd rs1 imm s = .fault (.raised (.outOfBoundsMemoryAccess (effAddr rs1 imm s))) := by
  unfold execLw; rw [memRead_outOfBounds s _ h]; rfl

/-- SW in bounds completes with the word stored at the effective address (rule R147). -/
theorem execSw_inBounds (rs2 rs1 : RegIdx) (imm : Word) (s : State) (h : inBounds s (effAddr rs1 imm s)) :
    execSw rs2 rs1 imm s =
      .next (({ s with mem := s.mem.writeWord (effAddr rs1 imm s).toNat (s.readReg rs2) } : State).setPc s.nextPc) := by
  unfold execSw; rw [memWrite_inBounds s _ _ h]

theorem execSw_outOfBounds (rs2 rs1 : RegIdx) (imm : Word) (s : State) (h : ¬ inBounds s (effAddr rs1 imm s)) :
    execSw rs2 rs1 imm s = .fault (.raised (.outOfBoundsMemoryAccess (effAddr rs1 imm s))) := by
  unfold execSw; rw [memWrite_outOfBounds s _ _ h]; rfl

/-- Everything a completing instruction can do: write its `rd` and set the pc; set the pc only; or, for SW in bounds,
store a word and advance. -/
theorem exec_next_cases (i : Instr) (s t : State) (h : exec i s = .next t) :
    (∃ rd v target, i.rd? = some rd ∧ t = (s.writeReg rd v).setPc target) ∨
      (i.rd? = none ∧ ∃ target, t = s.setPc target) ∨
      (∃ rs2 rs1 imm, i = .sw rs2 rs1 imm ∧ inBounds s (effAddr rs1 imm s) ∧
        t = ({ s with mem := s.mem.writeWord (effAddr rs1 imm s).toNat (s.readReg rs2) } : State).setPc s.nextPc) := by
  cases i
  case sw rs2 rs1 imm =>
    right; right
    by_cases hb : inBounds s (effAddr rs1 imm s)
    · rw [exec, execSw_inBounds _ _ _ _ hb] at h
      exact ⟨rs2, rs1, imm, rfl, hb, by injection h with h; exact h.symm⟩
    · rw [exec, execSw_outOfBounds _ _ _ _ hb] at h; cases h
  case lw rd rs1 imm =>
    left
    by_cases hb : inBounds s (effAddr rs1 imm s)
    · rw [exec, execLw_inBounds _ _ _ _ hb] at h
      exact ⟨rd, _, _, rfl, by injection h with h; exact h.symm⟩
    · rw [exec, execLw_outOfBounds _ _ _ _ hb] at h; cases h
  case beq | bne | blt | bge | bltu | bgeu =>
    right; left
    injection h with h
    exact ⟨rfl, _, h.symm⟩
  all_goals
    left
    injection h with h
    exact ⟨_, _, _, rfl, h.symm⟩

/-- `step` completes only by executing the decoded word that `fetch` gives. -/
theorem step_next_cases (s t : State) (h : step s = .next t) :
    ∃ w s' i, fetch s = some (w, s') ∧ decode w = .ok i ∧ exec i s' = .next t := by
  unfold step at h
  split at h
  · cases h
  · rename_i w s' hf
    unfold stepWord at h
    split at h
    · cases h
    · rename_i i hd
      exact ⟨w, s', i, hf, hd, h⟩

/-- What `fetch` gives: the word on the input, taken from it, or the word of the program at the pc. -/
theorem fetch_some_cases (s s' : State) (w : Word) (h : fetch s = some (w, s')) :
    (s.presented = some w ∧ s' = { s with presented := none }) ∨
      (s.presented = none ∧ s.pc.toNat % 4 = 0 ∧ s.prog[s.pc.toNat / 4]? = some w ∧ s' = s) := by
  unfold fetch at h
  split at h
  · rename_i v hv
    injection h with h
    injection h with h1 h2
    exact .inl ⟨by rw [hv, h1], h2.symm⟩
  · rename_i hv
    unfold progWord at h
    split at h
    · cases h
    · rename_i hm
      rcases hp : s.prog[s.pc.toNat / 4]? with _ | x
      · rw [hp] at h; cases h
      · rw [hp] at h
        injection h with h
        injection h with h1 h2
        exact .inr ⟨hv, by omega, by rw [h1], h2.symm⟩

end Sys2Proof.Machine
end

