-- ==== Sys2Proof/Laws/PerInstr.lean ====
section
/-! SUPPORT. The family `EncodeRow`: an encoded instruction has the fixed bits of its row of rule R80, because no operand
field of rule R81 reaches them. -/

namespace Sys2Proof.Laws.EncodeRow

/-- `encode i & mask = match` (rules R80, R81). -/
def Statement (i : Instr) : Prop := encode i &&& i.mnemonic.maskBits = i.mnemonic.matchBits

/-- The `match` column of rule R80 has no bit outside its mask. -/
theorem match_and_mask (m : Mnemonic) : m.matchBits &&& m.maskBits = m.matchBits := by cases m <;> decide

/-- Bits under the mask come from `match` alone when the fields have none there. -/
theorem or_and_of_fields (b f mask : Word) (hb : b &&& mask = b) (hf : f &&& mask = 0) : (b ||| f) &&& mask = b := by
  have h : (b ||| f) &&& mask = (b &&& mask) ||| (f &&& mask) := by
    apply BitVec.eq_of_getLsbD_eq
    intro i _
    simp only [BitVec.getLsbD_and, BitVec.getLsbD_or, Bool.and_or_distrib_right]
  rw [h, hb, hf]
  simp

/-- A placed field has no bit under a mask that is clear where the field stands. -/
theorem place_and {n : Nat} (v : BitVec n) (pos : Nat) (mask : Word)
    (h : ∀ i, i < 32 → pos ≤ i → i < pos + n → mask.getLsbD i = false) : place v pos &&& mask = 0 := by
  apply BitVec.eq_of_getLsbD_eq
  intro i hi
  simp only [place, BitVec.getLsbD_and, BitVec.getLsbD_shiftLeft, BitVec.getLsbD_setWidth, BitVec.getLsbD_ofNat,
    BitVec.ofNat_eq_ofNat]
  by_cases hp : i < pos
  · simp [hp]
  · by_cases hn : i < pos + n
    · simp [h i hi (by omega) hn]
    · have : v.getLsbD (i - pos) = false := BitVec.getLsbD_of_ge v (i - pos) (by omega)
      simp [this]

/-- Fields under a mask, one by one. -/
theorem or_and_zero {f g mask : Word} (hf : f &&& mask = 0) (hg : g &&& mask = 0) : (f ||| g) &&& mask = 0 := by
  apply BitVec.eq_of_getLsbD_eq
  intro i hi
  have h1 := congrArg (fun x => x.getLsbD i) hf
  have h2 := congrArg (fun x => x.getLsbD i) hg
  simp only [BitVec.getLsbD_and, BitVec.getLsbD_or, Bool.and_or_distrib_right] at *
  rw [h1, h2]
  simp

theorem fieldsU_and (rd : RegIdx) (imm : Word) : fieldsU rd imm &&& 0x0000007F = 0 :=
  or_and_zero (place_and _ _ _ (by decide)) (place_and _ _ _ (by decide))

theorem fieldsJ_and (rd : RegIdx) (imm : Word) : fieldsJ rd imm &&& 0x0000007F = 0 :=
  or_and_zero (or_and_zero (or_and_zero (or_and_zero (place_and _ _ _ (by decide)) (place_and _ _ _ (by decide)))
    (place_and _ _ _ (by decide))) (place_and _ _ _ (by decide))) (place_and _ _ _ (by decide))

theorem fieldsI_and (rd rs1 : RegIdx) (imm : Word) : fieldsI rd rs1 imm &&& 0x0000707F = 0 :=
  or_and_zero (or_and_zero (place_and _ _ _ (by decide)) (place_and _ _ _ (by decide))) (place_and _ _ _ (by decide))

theorem fieldsShift_and (rd rs1 : RegIdx) (n : Shamt) : fieldsShift rd rs1 n &&& 0xFE00707F = 0 :=
  or_and_zero (or_and_zero (place_and _ _ _ (by decide)) (place_and _ _ _ (by decide))) (place_and _ _ _ (by decide))

theorem fieldsS_and (rs1 rs2 : RegIdx) (imm : Word) : fieldsS rs1 rs2 imm &&& 0x0000707F = 0 :=
  or_and_zero (or_and_zero (or_and_zero (place_and _ _ _ (by decide)) (place_and _ _ _ (by decide)))
    (place_and _ _ _ (by decide))) (place_and _ _ _ (by decide))

theorem fieldsB_and (rs1 rs2 : RegIdx) (imm : Word) : fieldsB rs1 rs2 imm &&& 0x0000707F = 0 :=
  or_and_zero (or_and_zero (or_and_zero (or_and_zero (or_and_zero (place_and _ _ _ (by decide))
    (place_and _ _ _ (by decide))) (place_and _ _ _ (by decide))) (place_and _ _ _ (by decide)))
    (place_and _ _ _ (by decide))) (place_and _ _ _ (by decide))

theorem fieldsR_and (rd rs1 rs2 : RegIdx) : fieldsR rd rs1 rs2 &&& 0xFE00707F = 0 :=
  or_and_zero (or_and_zero (place_and _ _ _ (by decide)) (place_and _ _ _ (by decide))) (place_and _ _ _ (by decide))

theorem lui (rd : RegIdx) (imm : Word) : Statement (.lui rd imm) := or_and_of_fields _ _ _ (match_and_mask _) (fieldsU_and rd imm)
theorem auipc (rd : RegIdx) (imm : Word) : Statement (.auipc rd imm) := or_and_of_fields _ _ _ (match_and_mask _) (fieldsU_and rd imm)
theorem jal (rd : RegIdx) (imm : Word) : Statement (.jal rd imm) := or_and_of_fields _ _ _ (match_and_mask _) (fieldsJ_and rd imm)
theorem jalr (rd rs1 : RegIdx) (imm : Word) : Statement (.jalr rd rs1 imm) := or_and_of_fields _ _ _ (match_and_mask _) (fieldsI_and rd rs1 imm)
theorem lw (rd rs1 : RegIdx) (imm : Word) : Statement (.lw rd rs1 imm) := or_and_of_fields _ _ _ (match_and_mask _) (fieldsI_and rd rs1 imm)
theorem addi (rd rs1 : RegIdx) (imm : Word) : Statement (.addi rd rs1 imm) := or_and_of_fields _ _ _ (match_and_mask _) (fieldsI_and rd rs1 imm)
theorem slti (rd rs1 : RegIdx) (imm : Word) : Statement (.slti rd rs1 imm) := or_and_of_fields _ _ _ (match_and_mask _) (fieldsI_and rd rs1 imm)
theorem sltiu (rd rs1 : RegIdx) (imm : Word) : Statement (.sltiu rd rs1 imm) := or_and_of_fields _ _ _ (match_and_mask _) (fieldsI_and rd rs1 imm)
theorem beq (rs1 rs2 : RegIdx) (imm : Word) : Statement (.beq rs1 rs2 imm) := or_and_of_fields _ _ _ (match_and_mask _) (fieldsB_and rs1 rs2 imm)
theorem bne (rs1 rs2 : RegIdx) (imm : Word) : Statement (.bne rs1 rs2 imm) := or_and_of_fields _ _ _ (match_and_mask _) (fieldsB_and rs1 rs2 imm)
theorem blt (rs1 rs2 : RegIdx) (imm : Word) : Statement (.blt rs1 rs2 imm) := or_and_of_fields _ _ _ (match_and_mask _) (fieldsB_and rs1 rs2 imm)
theorem bge (rs1 rs2 : RegIdx) (imm : Word) : Statement (.bge rs1 rs2 imm) := or_and_of_fields _ _ _ (match_and_mask _) (fieldsB_and rs1 rs2 imm)
theorem bltu (rs1 rs2 : RegIdx) (imm : Word) : Statement (.bltu rs1 rs2 imm) := or_and_of_fields _ _ _ (match_and_mask _) (fieldsB_and rs1 rs2 imm)
theorem bgeu (rs1 rs2 : RegIdx) (imm : Word) : Statement (.bgeu rs1 rs2 imm) := or_and_of_fields _ _ _ (match_and_mask _) (fieldsB_and rs1 rs2 imm)
theorem sw (rs2 rs1 : RegIdx) (imm : Word) : Statement (.sw rs2 rs1 imm) := or_and_of_fields _ _ _ (match_and_mask _) (fieldsS_and rs1 rs2 imm)
theorem slli (rd rs1 : RegIdx) (n : Shamt) : Statement (.slli rd rs1 n) := or_and_of_fields _ _ _ (match_and_mask _) (fieldsShift_and rd rs1 n)
theorem srli (rd rs1 : RegIdx) (n : Shamt) : Statement (.srli rd rs1 n) := or_and_of_fields _ _ _ (match_and_mask _) (fieldsShift_and rd rs1 n)
theorem srai (rd rs1 : RegIdx) (n : Shamt) : Statement (.srai rd rs1 n) := or_and_of_fields _ _ _ (match_and_mask _) (fieldsShift_and rd rs1 n)
theorem add (rd rs1 rs2 : RegIdx) : Statement (.add rd rs1 rs2) := or_and_of_fields _ _ _ (match_and_mask _) (fieldsR_and rd rs1 rs2)
theorem sub (rd rs1 rs2 : RegIdx) : Statement (.sub rd rs1 rs2) := or_and_of_fields _ _ _ (match_and_mask _) (fieldsR_and rd rs1 rs2)
theorem sll (rd rs1 rs2 : RegIdx) : Statement (.sll rd rs1 rs2) := or_and_of_fields _ _ _ (match_and_mask _) (fieldsR_and rd rs1 rs2)
theorem slt (rd rs1 rs2 : RegIdx) : Statement (.slt rd rs1 rs2) := or_and_of_fields _ _ _ (match_and_mask _) (fieldsR_and rd rs1 rs2)
theorem sltu (rd rs1 rs2 : RegIdx) : Statement (.sltu rd rs1 rs2) := or_and_of_fields _ _ _ (match_and_mask _) (fieldsR_and rd rs1 rs2)
theorem xor (rd rs1 rs2 : RegIdx) : Statement (.xor rd rs1 rs2) := or_and_of_fields _ _ _ (match_and_mask _) (fieldsR_and rd rs1 rs2)
theorem srl (rd rs1 rs2 : RegIdx) : Statement (.srl rd rs1 rs2) := or_and_of_fields _ _ _ (match_and_mask _) (fieldsR_and rd rs1 rs2)
theorem sra (rd rs1 rs2 : RegIdx) : Statement (.sra rd rs1 rs2) := or_and_of_fields _ _ _ (match_and_mask _) (fieldsR_and rd rs1 rs2)
theorem or (rd rs1 rs2 : RegIdx) : Statement (.or rd rs1 rs2) := or_and_of_fields _ _ _ (match_and_mask _) (fieldsR_and rd rs1 rs2)
theorem and (rd rs1 rs2 : RegIdx) : Statement (.and rd rs1 rs2) := or_and_of_fields _ _ _ (match_and_mask _) (fieldsR_and rd rs1 rs2)

end Sys2Proof.Laws.EncodeRow
end

