-- ==== Sys2Proof/Tests/Slice0.lean ====
section
/-! SUPPORT. The model's own tests: well-formedness, decoding of words written out field by field from rules R63 to R68 and R80,
one step of every instruction on vectors of 95_test_vectors.md (their ids stand in the names), refused words, accessors,
reset, and for every statement of Obligations.lean with hypotheses a state and operands that meet them. -/

open Sys2Proof Sys2Proof.Machine

namespace Sys2Proof.Tests

/-! Small states and what is read from a step. -/

/-- Whatever is not listed is 0, as in the vectors. -/
def bench (p : X0Policy) (memSize : Nat) (pc : Word) (regs : List (RegIdx × Word)) (mem : Memory) : State :=
  { State.resetOf ⟨memSize, p⟩ with
    pc := pc
    mem := mem
    regs := regs.foldl (fun v x => v.set x.1 x.2) (Vector.replicate 32 0) }

/-- The bench of most vectors: `MEM_SIZE = 64`, `X0_POLICY = ordinary`, memory all 0. -/
def bench0 (pc : Word) (regs : List (RegIdx × Word)) : State := bench .ordinary 64 pc regs []

/-- Register `r` and the pc after one step with the word `w`, when it completes. -/
def after (s : State) (w : Word) (r : RegIdx) : Option (Word × Word) :=
  match step (present w s) with
  | .next t => some (t.readReg r, t.pc)
  | _ => none

/-- The memory and the pc after one step with the word `w`, when it completes. -/
def memAfter (s : State) (w : Word) : Option (Memory × Word) :=
  match step (present w s) with
  | .next t => some (t.mem, t.pc)
  | _ => none

/-- The error of one step with the word `w`, when it returns one. -/
def errorOf (s : State) (w : Word) : Option CoreError :=
  match step (present w s) with
  | .fault (.raised e) => some e
  | _ => none

/-- The reason for which a word is refused. -/
def refusal (w : Word) : Option DecodeReason :=
  match decode w with
  | .error r => some r
  | .ok _ => none

/-! Well-formedness (rule R81): an ill-formed term for each check, and the extremes that are well-formed. -/

theorem test_wf_imm12_refuses_above : (Instr.addi 1 2 2048).wf = false := by decide
theorem test_wf_imm12_refuses_below : (Instr.lw 1 2 (-2049)).wf = false := by decide
theorem test_wf_immS_refuses_above : (Instr.sw 1 2 2048).wf = false := by decide
theorem test_wf_immB_refuses_odd : (Instr.beq 1 2 3).wf = false := by decide
theorem test_wf_immB_refuses_above : (Instr.bltu 1 2 4096).wf = false := by decide
theorem test_wf_immB_refuses_below : (Instr.bge 1 2 (-4098)).wf = false := by decide
theorem test_wf_immJ_refuses_odd : (Instr.jal 1 (-1)).wf = false := by decide
theorem test_wf_immJ_refuses_above : (Instr.jal 1 1048576).wf = false := by decide
theorem test_wf_immJ_refuses_below : (Instr.jal 1 (-1048578)).wf = false := by decide
theorem test_wf_immU_refuses_low_bits : (Instr.lui 1 0x1001).wf = false := by decide

/-! Decoding: every instruction's word, its fields written out from left to right, highest bit first. -/

/-! U: `imm[31:12] rd opcode` (rule R67). -/

theorem test_decode_lui : decode (0b11111111111111111111#20 ++ 0b00001#5 ++ 0b0110111#7) = .ok (.lui 1 0xFFFFF000) := by
  decide

theorem test_decode_auipc : decode (0b10000000000000000001#20 ++ 0b11110#5 ++ 0b0010111#7) = .ok (.auipc 30 0x80001000) := by
  decide

/-! J: `imm[20] imm[10:1] imm[11] imm[19:12] rd opcode` (rules R68, R74). -/

theorem test_decode_jal : decode (0b1#1 ++ 0b0000000001#10 ++ 0b0#1 ++ 0b10101010#8 ++ 0b11111#5 ++ 0b1101111#7) = .ok (.jal 31 (-352254)) := by
  decide

/-! I: `imm[11:0] rs1 funct3 rd opcode`, the shifts `funct7 shamt rs1 funct3 rd opcode` (rules R64, R80). -/

theorem test_decode_jalr : decode (0b111111111111#12 ++ 0b00010#5 ++ 0b000#3 ++ 0b00001#5 ++ 0b1100111#7) = .ok (.jalr 1 2 (-1)) := by
  decide

theorem test_decode_lw : decode (0b111111111101#12 ++ 0b00001#5 ++ 0b010#3 ++ 0b00011#5 ++ 0b0000011#7) = .ok (.lw 3 1 (-3)) := by
  decide

theorem test_decode_addi : decode (0b100000000000#12 ++ 0b00110#5 ++ 0b000#3 ++ 0b00101#5 ++ 0b0010011#7) = .ok (.addi 5 6 (-2048)) := by
  decide

theorem test_decode_slti : decode (0b011111111111#12 ++ 0b01000#5 ++ 0b010#3 ++ 0b00111#5 ++ 0b0010011#7) = .ok (.slti 7 8 2047) := by
  decide

theorem test_decode_sltiu : decode (0b111111111111#12 ++ 0b01010#5 ++ 0b011#3 ++ 0b01001#5 ++ 0b0010011#7) = .ok (.sltiu 9 10 (-1)) := by
  decide

theorem test_decode_slli : decode (0b0000000#7 ++ 0b11111#5 ++ 0b01100#5 ++ 0b001#3 ++ 0b01011#5 ++ 0b0010011#7) = .ok (.slli 11 12 31) := by
  decide

theorem test_decode_srli : decode (0b0000000#7 ++ 0b00001#5 ++ 0b01110#5 ++ 0b101#3 ++ 0b01101#5 ++ 0b0010011#7) = .ok (.srli 13 14 1) := by
  decide

theorem test_decode_srai : decode (0b0100000#7 ++ 0b11110#5 ++ 0b10000#5 ++ 0b101#3 ++ 0b01111#5 ++ 0b0010011#7) = .ok (.srai 15 16 30) := by
  decide

/-! S: `imm[11:5] rs2 rs1 funct3 imm[4:0] opcode` (rules R65, R71). -/

theorem test_decode_sw : decode (0b1111111#7 ++ 0b00010#5 ++ 0b00001#5 ++ 0b010#3 ++ 0b11100#5 ++ 0b0100011#7) = .ok (.sw 2 1 (-4)) := by
  decide

/-! B: `imm[12] imm[10:5] rs2 rs1 funct3 imm[4:1] imm[11] opcode` (rules R66, R72). -/

theorem test_decode_beq : decode (0b1#1 ++ 0b000000#6 ++ 0b00010#5 ++ 0b00001#5 ++ 0b000#3 ++ 0b0000#4 ++ 0b0#1 ++ 0b1100011#7) = .ok (.beq 1 2 (-4096)) := by
  decide

theorem test_decode_bne : decode (0b0#1 ++ 0b000000#6 ++ 0b00010#5 ++ 0b00001#5 ++ 0b001#3 ++ 0b0000#4 ++ 0b1#1 ++ 0b1100011#7) = .ok (.bne 1 2 2048) := by
  decide

theorem test_decode_blt : decode (0b1#1 ++ 0b111111#6 ++ 0b00010#5 ++ 0b00001#5 ++ 0b100#3 ++ 0b1111#4 ++ 0b1#1 ++ 0b1100011#7) = .ok (.blt 1 2 (-2)) := by
  decide

theorem test_decode_bge : decode (0b0#1 ++ 0b111111#6 ++ 0b00010#5 ++ 0b00001#5 ++ 0b101#3 ++ 0b1111#4 ++ 0b1#1 ++ 0b1100011#7) = .ok (.bge 1 2 4094) := by
  decide

theorem test_decode_bltu : decode (0b0#1 ++ 0b000000#6 ++ 0b00010#5 ++ 0b00001#5 ++ 0b110#3 ++ 0b0100#4 ++ 0b0#1 ++ 0b1100011#7) = .ok (.bltu 1 2 8) := by
  decide

theorem test_decode_bgeu : decode (0b0#1 ++ 0b100000#6 ++ 0b00010#5 ++ 0b00001#5 ++ 0b111#3 ++ 0b0000#4 ++ 0b0#1 ++ 0b1100011#7) = .ok (.bgeu 1 2 1024) := by
  decide

/-! R: `funct7 rs2 rs1 funct3 rd opcode` (rules R63, R80). -/

theorem test_decode_add : decode (0b0000000#7 ++ 0b00011#5 ++ 0b00010#5 ++ 0b000#3 ++ 0b00001#5 ++ 0b0110011#7) = .ok (.add 1 2 3) := by
  decide

theorem test_decode_sub : decode (0b0100000#7 ++ 0b00011#5 ++ 0b00010#5 ++ 0b000#3 ++ 0b00001#5 ++ 0b0110011#7) = .ok (.sub 1 2 3) := by
  decide

theorem test_decode_sll : decode (0b0000000#7 ++ 0b00011#5 ++ 0b00010#5 ++ 0b001#3 ++ 0b00001#5 ++ 0b0110011#7) = .ok (.sll 1 2 3) := by
  decide

theorem test_decode_slt : decode (0b0000000#7 ++ 0b00011#5 ++ 0b00010#5 ++ 0b010#3 ++ 0b00001#5 ++ 0b0110011#7) = .ok (.slt 1 2 3) := by
  decide

theorem test_decode_sltu : decode (0b0000000#7 ++ 0b00011#5 ++ 0b00010#5 ++ 0b011#3 ++ 0b00001#5 ++ 0b0110011#7) = .ok (.sltu 1 2 3) := by
  decide

theorem test_decode_xor : decode (0b0000000#7 ++ 0b00011#5 ++ 0b00010#5 ++ 0b100#3 ++ 0b00001#5 ++ 0b0110011#7) = .ok (.xor 1 2 3) := by
  decide

theorem test_decode_srl : decode (0b0000000#7 ++ 0b00011#5 ++ 0b00010#5 ++ 0b101#3 ++ 0b00001#5 ++ 0b0110011#7) = .ok (.srl 1 2 3) := by
  decide

theorem test_decode_sra : decode (0b0100000#7 ++ 0b00011#5 ++ 0b00010#5 ++ 0b101#3 ++ 0b00001#5 ++ 0b0110011#7) = .ok (.sra 1 2 3) := by
  decide

theorem test_decode_or : decode (0b0000000#7 ++ 0b00011#5 ++ 0b00010#5 ++ 0b110#3 ++ 0b00001#5 ++ 0b0110011#7) = .ok (.or 1 2 3) := by
  decide

theorem test_decode_and : decode (0b0000000#7 ++ 0b00011#5 ++ 0b00010#5 ++ 0b111#3 ++ 0b00001#5 ++ 0b0110011#7) = .ok (.and 1 2 3) := by
  decide

/-! The vectors of the pure functions (95_test_vectors.md, section 3). -/

theorem test_E1_E4_extractBits : extractBits 0xDEADBEEF 0 6 = 0x6F ∧ extractBits 0xDEADBEEF 7 11 = 29 ∧
    extractBits 0xDEADBEEF 25 31 = 0x6F ∧ extractBits 0xDEADBEEF 31 31 = 1 ∧ extractBits 0xDEADBEEF 0 31 = 0xDEADBEEF := by
  decide
theorem test_E6_immediates : immI 0xDEADBEEF = 0xFFFFFDEA ∧ immS 0xDEADBEEF = 0xFFFFFDFD ∧ immB 0xDEADBEEF = 0xFFFFFDFC ∧
    immU 0xDEADBEEF = 0xDEADB000 ∧ immJ 0xDEADBEEF = 0xFFFDB5EA := by decide
theorem test_E8_immediates : immI 0x1234567B = 0x00000123 ∧ immS 0x1234567B = 0x0000012C ∧ immB 0x1234567B = 0x0000012C ∧
    immU 0x1234567B = 0x12345000 ∧ immJ 0x1234567B = 0x00045922 := by decide
theorem test_E10_E12_immB : immB 0x002090E3 = 2048 ∧ immB 0x80208063 = -4096 ∧ immB 0x7E208FE3 = 4094 := by decide
theorem test_E15_E17_immJ : immJ 0x002000EF = 2 ∧ immJ 0x001000EF = 2048 ∧ immJ 0x000FF0EF = 1044480 := by decide

/-! Encoding: words of the vectors, the other way round. -/

theorem test_encode_formats : encode (.sub 1 2 3) = 0x403100B3 ∧ encode (.addi 5 5 (-2048)) = 0x80028293 ∧
    encode (.srai 1 2 31) = 0x41F15093 ∧ encode (.sw 2 1 (-4)) = 0xFE20AE23 ∧ encode (.beq 1 2 4094) = 0x7E208FE3 ∧
    encode (.auipc 1 0xFFFFF000) = 0xFFFFF097 ∧ encode (.jal 1 (-8)) = 0xFF9FF0EF := by decide

/-! Refused words (95_test_vectors.md, section 4.7). -/

theorem test_V110_V114_compressed_class : refusal 0x00000000 = some .compressedClass ∧ refusal 0x00000001 = some .compressedClass ∧
    refusal 0x00004501 = some .compressedClass ∧ refusal 0x00008082 = some .compressedClass := by decide
theorem test_V111_V123_unknown_opcode : refusal 0xFFFFFFFF = some .unknownOpcode ∧ refusal 0x0FF0000F = some .unknownOpcode ∧
    refusal 0x0000100F = some .unknownOpcode ∧ refusal 0x00000073 = some .unknownOpcode ∧
    refusal 0x00100073 = some .unknownOpcode ∧ refusal 0x30200073 = some .unknownOpcode ∧
    refusal 0x10500073 = some .unknownOpcode ∧ refusal 0x30001073 = some .unknownOpcode ∧
    refusal 0x1005202F = some .unknownOpcode ∧ refusal 0x1234567B = some .unknownOpcode := by decide
theorem test_V124_V132_unknown_function : refusal 0x00F17093 = some .unknownFunction ∧ refusal 0x00F16093 = some .unknownFunction ∧
    refusal 0x00F14093 = some .unknownFunction ∧ refusal 0x40201093 = some .unknownFunction ∧
    refusal 0x02201093 = some .unknownFunction ∧ refusal 0x20205093 = some .unknownFunction ∧
    refusal 0x02310033 = some .unknownFunction ∧ refusal 0x02A5D533 = some .unknownFunction ∧
    refusal 0x403110B3 = some .unknownFunction := by decide
theorem test_V133_V142_unknown_function : refusal 0x00011067 = some .unknownFunction ∧ refusal 0x00002063 = some .unknownFunction ∧
    refusal 0x00003063 = some .unknownFunction ∧ refusal 0x00008183 = some .unknownFunction ∧
    refusal 0x00009183 = some .unknownFunction ∧ refusal 0x0000C183 = some .unknownFunction ∧
    refusal 0x0000D183 = some .unknownFunction ∧ refusal 0x0000B183 = some .unknownFunction ∧
    refusal 0x00208023 = some .unknownFunction ∧ refusal 0x00209023 = some .unknownFunction := by decide
/-- The priority of rule R175: refused at decode, though its address would be out of bounds. -/
theorem test_priority_decode_first :
    errorOf (bench0 0 [(1, 0xFFFFFFF0)]) 0x00008183 = some (.decodeNotImplemented .unknownFunction) := by decide

/-! One step (95_test_vectors.md, sections 2 and 4): the register named, or the memory, and the pc. -/

theorem test_S3_addi_ordinary : after (bench0 0x0 [(0, 0x4)]) 0x00200093 1 = some (0x6, 0x4) := by decide
theorem test_S3_addi_hardwired : after (bench .hardwired 64 0x0 [(0, 0x4)] []) 0x00200093 1 = some (0x2, 0x4) := by decide
theorem test_V35_slti : after (bench0 0x0 [(2, 0x80000000)]) 0x80012093 1 = some (0x1, 0x4) := by decide
theorem test_V36_slti_equal : after (bench0 0x0 [(2, 0x5), (1, 0xAAAAAAAA)]) 0x00512093 1 = some (0x0, 0x4) := by decide
theorem test_V37_sltiu : after (bench0 0x0 [(2, 0x5)]) 0xFFF13093 1 = some (0x1, 0x4) := by decide
theorem test_V39_sltiu : after (bench0 0x0 [(1, 0xAAAAAAAA)]) 0x00013093 1 = some (0x0, 0x4) := by decide
theorem test_S4_slli : after (bench0 0x0 [(0, 0x8)]) 0x00201093 1 = some (0x20, 0x4) := by decide
theorem test_S4_srli : after (bench0 0x0 [(0, 0xFFFFFFE0)]) 0x00205093 1 = some (0x3FFFFFF8, 0x4) := by decide
theorem test_V30_srai : after (bench0 0x0 [(2, 0xFFFFFFE0)]) 0x40215093 1 = some (0xFFFFFFF8, 0x4) := by decide
theorem test_V32_srai : after (bench0 0x0 [(2, 0x7FFFFFF0)]) 0x40415093 1 = some (0x7FFFFFF, 0x4) := by decide
theorem test_V40_add : after (bench0 0x0 [(2, 0xFFFFFFFF), (3, 0x1), (1, 0x55)]) 0x003100B3 1 = some (0x0, 0x4) := by decide
theorem test_V42_add_same_register : after (bench0 0x0 [(2, 0x40000001)]) 0x00210133 2 = some (0x80000002, 0x4) := by decide
theorem test_S6_sub : after (bench0 0x0 [(2, 0x2), (3, 0x3)]) 0x403100B3 1 = some (0xFFFFFFFF, 0x4) := by decide
theorem test_V43_sub : after (bench0 0x0 [(2, 0x80000000), (3, 0x1)]) 0x403100B3 1 = some (0x7FFFFFFF, 0x4) := by decide
theorem test_V45_sll : after (bench0 0x0 [(2, 0x1), (3, 0xFFFFFFFF)]) 0x003110B3 1 = some (0x80000000, 0x4) := by decide
theorem test_V46_sll : after (bench0 0x0 [(2, 0x12345678), (3, 0x20)]) 0x003110B3 1 = some (0x12345678, 0x4) := by decide
theorem test_V50_slt : after (bench0 0x0 [(2, 0x80000000), (3, 0x7FFFFFFF)]) 0x003120B3 1 = some (0x1, 0x4) := by decide
theorem test_V52_slt : after (bench0 0x0 [(2, 0x4), (3, 0xFFFFFFFB), (1, 0x9)]) 0x003120B3 1 = some (0x0, 0x4) := by decide
theorem test_S6_sltu : after (bench0 0x0 [(2, 0x4), (3, 0xFFFFFFFB)]) 0x003130B3 1 = some (0x1, 0x4) := by decide
theorem test_V51_sltu : after (bench0 0x0 [(2, 0x80000000), (3, 0x7FFFFFFF), (1, 0x9)]) 0x003130B3 1 = some (0x0, 0x4) := by decide
theorem test_V54_xor : after (bench0 0x0 [(2, 0xFF00FF00), (3, 0xFF00FF0)]) 0x003140B3 1 = some (0xF0F0F0F0, 0x4) := by decide
theorem test_V47_srl : after (bench0 0x0 [(2, 0x80000000), (3, 0x24)]) 0x003150B3 1 = some (0x8000000, 0x4) := by decide
theorem test_V48_sra : after (bench0 0x0 [(2, 0x80000000), (3, 0x24)]) 0x403150B3 1 = some (0xF8000000, 0x4) := by decide
theorem test_V55_or : after (bench0 0x0 [(2, 0xFF00FF00), (3, 0xFF00FF0)]) 0x003160B3 1 = some (0xFFF0FFF0, 0x4) := by decide
theorem test_V56_and : after (bench0 0x0 [(2, 0xFF00FF00), (3, 0xFF00FF0)]) 0x003170B3 1 = some (0xF000F00, 0x4) := by decide
theorem test_V60_lui : after (bench0 0x0 [(1, 0xABC)]) 0xFFFFF0B7 1 = some (0xFFFFF000, 0x4) := by decide
theorem test_S5_auipc : after (bench0 0x4 []) 0x00001097 1 = some (0x1004, 0x8) := by decide
theorem test_V64_auipc_wraps : after (bench0 0xFFFFF004 []) 0x00001097 1 = some (0x4, 0xFFFFF008) := by decide
theorem test_S7_jal : after (bench0 0xA []) 0x010000EF 1 = some (0xE, 0x1A) := by decide
theorem test_V67_jal_hardwired : after (bench .hardwired 64 0x10 [] []) 0x0000006F 0 = some (0x0, 0x10) := by decide
theorem test_S8_jalr : after (bench0 0x5 [(2, 0xF)]) 0x00A100E7 1 = some (0x9, 0x18) := by decide
theorem test_V71_jalr_rd_is_rs1 : after (bench0 0x40 [(1, 0x100)]) 0x004080E7 1 = some (0x44, 0x104) := by decide
theorem test_S9_beq_taken : after (bench0 0x5 [(1, 0x1), (2, 0x2), (3, 0x1)]) 0x00308563 1 = some (0x1, 0xF) := by decide
theorem test_S9_beq_not_taken : after (bench0 0x5 [(1, 0x1), (2, 0x2), (3, 0x1)]) 0x00208563 1 = some (0x1, 0x9) := by decide
theorem test_V79_bne : after (bench0 0x0 [(1, 0x3), (2, 0x4)]) 0x002090E3 1 = some (0x3, 0x800) := by decide
theorem test_V81_bne_same_register : after (bench0 0x30 [(3, 0x9)]) 0x00319463 3 = some (0x9, 0x34) := by decide
theorem test_V84_blt : after (bench0 0x30 [(1, 0xFFFFFFFE)]) 0xFE20CFE3 2 = some (0x0, 0x2E) := by decide
theorem test_V82_bge_equal : after (bench0 0x30 [(1, 0x5), (2, 0x5)]) 0x0020D463 1 = some (0x5, 0x38) := by decide
theorem test_V83_bltu_equal : after (bench0 0x30 [(1, 0x5), (2, 0x5)]) 0x0020E463 1 = some (0x5, 0x34) := by decide
theorem test_V85_bgeu_wraps : after (bench0 0xFFFFFFF8 []) 0x0020F863 1 = some (0x0, 0x8) := by decide
theorem test_V96_V99_lw :
    after (bench .ordinary 64 0 [(1, 4)] [(0, 0x44), (1, 0x33), (2, 0x22), (3, 0x11), (4, 0x88), (5, 0x77), (6, 0x66), (7, 0x55)])
      0xFFD0A183 3 = some (0x88112233, 4) ∧
    after (bench .ordinary 64 0 [(1, 0xFFFFFFFC)] [(4, 0xEF), (5, 0xBE), (6, 0xAD), (7, 0xDE)]) 0x0080A183 3 =
      some (0xDEADBEEF, 4) := by decide
theorem test_V95_sw_negative_offset : memAfter (bench0 0 [(1, 0x20), (2, 0x11223344)]) 0xFE20AE23 =
    some ([(28, 0x44), (29, 0x33), (30, 0x22), (31, 0x11)], 4) := by decide
/-- V102, and the canonical form: bytes stored between listed ones stand in their place. -/
theorem test_V102_sw_misaligned :
    memAfter (bench .ordinary 64 0 [(2, 0xFFFFFFFF)] [(0, 1), (1, 2), (2, 3), (3, 4), (4, 5), (5, 6), (6, 7), (7, 8)]) 0x0020A0A3 =
      some ([(0, 1), (1, 0xFF), (2, 0xFF), (3, 0xFF), (4, 0xFF), (5, 6), (6, 7), (7, 8)], 4) := by decide
theorem test_V103_lw_x0_both_policies :
    after (bench .ordinary 64 0 [] [(0, 9)]) 0x0000A003 0 = some (9, 4) ∧
    after (bench .hardwired 64 0 [] [(0, 9)]) 0x0000A003 0 = some (0, 4) := by decide
theorem test_V93_V97_V98_V104_out_of_bounds :
    errorOf (bench0 0x10 [(2, 0xA1B2C3D4)]) 0x0220AEA3 = some (.outOfBoundsMemoryAccess 0x3D) ∧
    errorOf (bench0 0x10 []) 0xFFF0A183 = some (.outOfBoundsMemoryAccess 0xFFFFFFFF) ∧
    errorOf (bench0 0x10 [(1, 0xFFFFFFFC), (2, 1)]) 0x0020A123 = some (.outOfBoundsMemoryAccess 0xFFFFFFFE) ∧
    errorOf (bench .ordinary 3 0x10 [] []) 0x0000A183 = some (.outOfBoundsMemoryAccess 0) := by decide
/-- Writing 0 over a listed byte takes it out of the list. -/
theorem test_store_zero_removes_entry : Memory.writeWord [(0, 1), (3, 4), (9, 9)] 0 0 = [(9, 9)] := by decide

/-! Accessors and reset (95_test_vectors.md, section 4.8). -/

theorem test_V150_reset_values : (∀ r, State.reset.readReg r = 0) ∧ State.reset.pc = 0 ∧ State.reset.mem = [] := by decide
theorem test_V151_V152_write_x0 :
    (access (.read 0) (access (.write 0 4) (bench .ordinary 64 0 [] [])).1).2 = .ok (some 4) ∧
    (access (.read 0) (access (.write 0 4) (bench .hardwired 64 0 [] [])).1).2 = .ok (some 0) := ⟨rfl, rfl⟩
theorem test_V153_index : access (.read 32) (bench0 0 []) = (bench0 0 [], .error (.invalidRegisterIndex 32)) ∧
    access (.write 40 1) (bench0 0 []) = (bench0 0 [], .error (.invalidRegisterIndex 40)) := ⟨rfl, rfl⟩
theorem test_V154_store_then_load :
    (access (.storeWord 60 0xA1B2C3D4) (bench0 0 [])).1.mem = [(60, 0xD4), (61, 0xC3), (62, 0xB2), (63, 0xA1)] ∧
    (access (.loadWord 60) (access (.storeWord 60 0xA1B2C3D4) (bench0 0 [])).1).2 = .ok (some 0xA1B2C3D4) :=
  ⟨by decide, rfl⟩
theorem test_V155_bounds : (access (.loadWord 61) (bench0 0 [])).2 = .error (.outOfBoundsMemoryAccess 0x3D) ∧
    (access (.storeWord 0xFFFFFFFE 1) (bench0 0 [])).2 = .error (.outOfBoundsMemoryAccess 0xFFFFFFFE) := ⟨rfl, rfl⟩
theorem test_V156_any_pc : (access .readPC (access (.writePC 0xFFFFFFFF) (bench0 0 [])).1).2 = .ok (some 0xFFFFFFFF) := rfl

/-! The host's two doors: decoding a table word, and the first step after reset. -/

theorem test_decodeTableWord : decodeTableWord 32 0x40215093 = some (.srai 1 2 2) ∧ decodeTableWord 32 0 = none := by decide
theorem test_withFetchWord : step (State.reset.withFetchWord 32 0x010000EF) = exec (.jal 1 16) State.reset := rfl
theorem test_step_from_program :
    step (launch [0x00000013, 0x010000EF] (bench0 4 [])) = exec (.jal 1 16) (launch [0x00000013, 0x010000EF] (bench0 4 [])) := rfl
/-- Rule R199: a pc that is no multiple of 4, or past the last word, ends the run. -/
theorem test_step_end_of_program : step (launch [0x00000013] (bench0 2 [])) = .fault .endOfProgram ∧
    step (launch [0x00000013] (bench0 4 [])) = .fault .endOfProgram := ⟨rfl, rfl⟩

/-! For every statement with hypotheses, values that meet them; where a statement has several clauses, values of each at the
edge of its range. -/

/-- `P7` of 95_test_vectors.md, cut after its refused word. -/
def refusedProgram : State := launch [0x00108093, 0x00000073] (bench0 0 [])

/-- A state with a word on the input whose step completes. -/
def runningState : State := present 0x0020A023 (bench .hardwired 64 0 [(1, 60), (2, 0x11223344)] [(63, 1)])

theorem runningState_inv : runningState.Inv := ⟨by decide, by decide, by decide, fun _ => rfl⟩
theorem runningState_completes : ∃ t, step runningState = .next t := ⟨_, rfl⟩
theorem refusedProgram_faults : StopsFaulted 2 refusedProgram (.decodeNotImplemented .unknownOpcode)
    (launch [0x00108093, 0x00000073] (bench0 4 [(1, 1)])) := rfl
theorem emptyProgram_ends : EndsNormally 1 State.reset State.reset := rfl

theorem witness_ExtractBitsIsDivMod : (0 ≤ 0 ∧ 0 ≤ 31) ∧ (31 ≤ 31 ∧ 31 ≤ 31) ∧ (0 ≤ 31 ∧ 31 ≤ 31) := by decide
theorem witness_ImmediateUIsHighPart : (extractBits 0x00001FFF 12 31).toNat = 1 ∧ immU 0x00001FFF = 4096 := by decide
theorem witness_DecodeOfEncodeIsIdentity : (Instr.addi 31 31 2047).wf = true ∧ (Instr.lw 0 0 (-2048)).wf = true ∧
    (Instr.sw 31 0 (-2048)).wf = true ∧ (Instr.beq 0 31 4094).wf = true ∧ (Instr.bgeu 0 31 (-4096)).wf = true ∧
    (Instr.jal 31 1048574).wf = true ∧ (Instr.jal 0 (-1048576)).wf = true ∧ (Instr.lui 31 0xFFFFF000).wf = true ∧
    (Instr.srai 0 0 31).wf = true ∧ (Instr.and 31 31 31).wf = true := by decide
theorem witness_EncodeOfDecodeIsIdentity : decode 0x80208063 = .ok (.beq 1 2 (-4096)) := by decide
theorem witness_ExactlyTheRowsDecode : decode 0x403100B3 = .ok (.sub 1 2 3) ∧
    0x403100B3 &&& Mnemonic.sub.maskBits = Mnemonic.sub.matchBits ∧
    (∀ m : Mnemonic, m ∈ [.lui, .auipc, .jal, .jalr, .beq, .bne, .blt, .bge, .bltu, .bgeu, .lw, .sw, .addi, .slti, .sltiu,
      .slli, .srli, .srai, .add, .sub, .sll, .slt, .sltu, .xor, .srl, .sra, .or, .and] →
      0x00000073 &&& m.maskBits ≠ m.matchBits) := by decide
/-- One word for each row's mask and match: the hypothesis of every decode clause of the result statements. -/
theorem witness_DecodesRow : (0xFFFFF0B7 : Word) &&& 0x7F = 0x37 ∧ (0x00001097 : Word) &&& 0x7F = 0x17 ∧
    (0xFF9FF0EF : Word) &&& 0x7F = 0x6F ∧ (0x004080E7 : Word) &&& 0x707F = 0x67 ∧ (0x80208063 : Word) &&& 0x707F = 0x63 ∧
    (0x002090E3 : Word) &&& 0x707F = 0x1063 ∧ (0xFE20CFE3 : Word) &&& 0x707F = 0x4063 ∧
    (0x0020D463 : Word) &&& 0x707F = 0x5063 ∧ (0x0020E463 : Word) &&& 0x707F = 0x6063 ∧
    (0x0020F863 : Word) &&& 0x707F = 0x7063 ∧ (0xFFD0A183 : Word) &&& 0x707F = 0x2003 ∧
    (0xFE20AE23 : Word) &&& 0x707F = 0x2023 ∧ (0x80028293 : Word) &&& 0x707F = 0x13 ∧
    (0x80012093 : Word) &&& 0x707F = 0x2013 ∧ (0xFFF13093 : Word) &&& 0x707F = 0x3013 := by decide
theorem witness_DecodesRow_funct7 : (0x00201093 : Word) &&& 0xFE00707F = 0x1013 ∧
    (0x00205093 : Word) &&& 0xFE00707F = 0x5013 ∧ (0x41F15093 : Word) &&& 0xFE00707F = 0x40005013 ∧
    (0x003100B3 : Word) &&& 0xFE00707F = 0x33 ∧ (0x403100B3 : Word) &&& 0xFE00707F = 0x40000033 ∧
    (0x003110B3 : Word) &&& 0xFE00707F = 0x1033 ∧ (0x003120B3 : Word) &&& 0xFE00707F = 0x2033 ∧
    (0x003130B3 : Word) &&& 0xFE00707F = 0x3033 ∧ (0x003140B3 : Word) &&& 0xFE00707F = 0x4033 ∧
    (0x003150B3 : Word) &&& 0xFE00707F = 0x5033 ∧ (0x403150B3 : Word) &&& 0xFE00707F = 0x40005033 ∧
    (0x003160B3 : Word) &&& 0xFE00707F = 0x6033 ∧ (0x003170B3 : Word) &&& 0xFE00707F = 0x7033 := by decide
/-- Words refused under the shift functions, and a JALR word refused for its `funct3`. -/
theorem witness_ShiftImmediateResult_JalrResult : ((0x40201093 : Word) &&& 0x707F = 0x1013 ∧ (0x40201093 : Word).toNat / 2 ^ 25 ≠ 0) ∧
    ((0x20205093 : Word) &&& 0x707F = 0x5013 ∧ (0x20205093 : Word).toNat / 2 ^ 25 ≠ 0 ∧ (0x20205093 : Word).toNat / 2 ^ 25 ≠ 32) ∧
    ((0x00011067 : Word) &&& 0x7F = 0x67 ∧ (0x00011067 : Word).toNat / 2 ^ 12 % 8 ≠ 0) := by decide
theorem witness_FenceAndSystemWordsRefused :
    ((0x0FF0000F : Word).toNat % 128 = 0x0F ∧ StandsAtPc 0x0FF0000F (launch [0x0FF0000F] (bench0 0 []))) ∧
    ((0x00000073 : Word).toNat % 128 = 0x73 ∧ StandsAtPc 0x00000073 (launch [0, 0x00000073] (bench0 4 []))) :=
  ⟨⟨by decide, rfl, rfl, rfl⟩, by decide, rfl, rfl, rfl⟩
theorem witness_LogicalImmediateAndSubwordRefused :
    ((0x00F17093 : Word).toNat % 128 = 0x13 ∧ (0x00F17093 : Word).toNat / 2 ^ 12 % 8 ∈ [7, 6, 4]) ∧
    ((0x0000B183 : Word).toNat % 128 = 0x03 ∧ (0x0000B183 : Word).toNat / 2 ^ 12 % 8 ≠ 2) ∧
    ((0x00209023 : Word).toNat % 128 = 0x23 ∧ (0x00209023 : Word).toNat / 2 ^ 12 % 8 ≠ 2) ∧
    StandsAtPc 0x00209023 (launch [0x00209023] (bench0 0 [])) := ⟨by decide, by decide, by decide, rfl, rfl, rfl⟩
theorem witness_RegisterFileHoldsLastWrite : (bench .hardwired 64 0 [] []).cfg.x0Policy = .hardwired ∧
    ((bench .hardwired 64 0 [] []).writeReg 0 7).readReg 0 = 0 ∧ ((bench0 0 []).writeReg 0 7).readReg 0 = 7 ∧ 31 < 32 := by decide
/-- In bounds at the last legal address, out of bounds one above it (MEM_SIZE 64), and out of bounds everywhere below 4 bytes. -/
theorem witness_WordReadIsLittleEndian : (0x3C : Word).toNat + 4 ≤ (bench0 0 []).cfg.memSize ∧
    (0x3D : Word).toNat + 4 > (bench0 0 []).cfg.memSize ∧ (0 : Word).toNat + 4 > (bench .ordinary 3 0 [] []).cfg.memSize := by
  decide
theorem witness_WordWriteStoresFourBytes : (bench .ordinary 64 0 [] [(0, 1), (63, 9)]).mem.wf ∧
    (0x3C : Word).toNat + 4 ≤ (bench .ordinary 64 0 [] [(0, 1), (63, 9)]).cfg.memSize ∧
    (0x3D : Word).toNat + 4 > (bench .ordinary 64 0 [] [(0, 1), (63, 9)]).cfg.memSize := by decide
theorem witness_EffectiveAddressWrapsUnsigned : (bench .ordinary 2147483648 0 [] []).cfg.wf ∧
    (0x80000000 : Word).getLsbD 31 = true := by decide
theorem witness_BoundsCheckDoesNotWrap : ((bench .ordinary 2147483648 0 [] []).cfg.wf ∧ 2 ^ 32 ≤ (0xFFFFFFFC : Word).toNat + 4) ∧
    (bench .ordinary 3 0 [] []).cfg.memSize < 4 ∧ 4 ≤ (bench .ordinary 4 0 [] []).cfg.memSize := by decide
theorem witness_StoreThenLoadReturnsValue : (bench .ordinary 64 0 [] [(1, 1)]).mem.wf ∧
    (0x3C : Word).toNat + 4 ≤ (bench .ordinary 64 0 [] [(1, 1)]).cfg.memSize := by decide
theorem witness_OverlappingReadPinsByteOrder : (bench .ordinary 8 0 [] [(7, 1)]).mem.wf ∧ (bench .ordinary 8 0 [] [(7, 1)]).cfg.wf ∧
    (0 : Word).toNat + 8 ≤ (bench .ordinary 8 0 [] [(7, 1)]).cfg.memSize := by decide
theorem witness_LwResult : (effAddr 1 60 (bench0 0 [])).toNat + 4 ≤ (bench0 0 []).cfg.memSize ∧
    (effAddr 1 61 (bench0 0 [])).toNat + 4 > (bench0 0 []).cfg.memSize ∧
    StandsAtPc 0x03D0A183 (launch [0x03D0A183] (bench0 0 [])) ∧ decode 0x03D0A183 = .ok (.lw 3 1 61) :=
  ⟨by decide, by decide, ⟨rfl, rfl, rfl⟩, by decide⟩
theorem witness_SwResult : (bench0 0 []).mem.wf ∧ (effAddr 1 60 (bench0 0 [])).toNat + 4 ≤ (bench0 0 []).cfg.memSize ∧
    (effAddr 1 61 (bench0 0 [])).toNat + 4 > (bench0 0 []).cfg.memSize ∧
    StandsAtPc 0x0220AEA3 (launch [0x0220AEA3] (bench0 0 [])) ∧ decode 0x0220AEA3 = .ok (.sw 2 1 61) :=
  ⟨by decide, by decide, by decide, ⟨rfl, rfl, rfl⟩, by decide⟩
theorem witness_StoreAndLoadOffsetsAgree : (immWf12 (-2048) ∧ (bench0 0 [(1, 2048)]).mem.wf ∧
      (effAddr 1 (-2048) (bench0 0 [(1, 2048)])).toNat + 4 ≤ (bench0 0 [(1, 2048)]).cfg.memSize) ∧
    (immWf12 2047 ∧ (bench0 0 [(1, 0xFFFFF801)]).mem.wf ∧
      (effAddr 1 2047 (bench0 0 [(1, 0xFFFFF801)])).toNat + 4 ≤ (bench0 0 [(1, 0xFFFFF801)]).cfg.memSize) := by decide
theorem witness_NextPcFollowsTable : StandsAtPc 0x03D0A183 (launch [0x03D0A183] (bench0 0 [])) ∧
    decode 0x03D0A183 = .ok (.lw 3 1 61) ∧
    exec (.lw 3 1 61) (launch [0x03D0A183] (bench0 0 [])) = .fault (.raised (.outOfBoundsMemoryAccess 61)) :=
  ⟨⟨rfl, rfl, rfl⟩, by decide, rfl⟩
/-- A form that stores nothing, and SW with the addresses next to its four bytes on either side. -/
theorem witness_OnlyNamedRegisterAndStoreChange :
    ((∃ t, exec (.jalr 1 1 4) (bench0 0 []) = .next t) ∧ ∀ rs2 rs1 imm, Instr.jalr 1 1 4 ≠ .sw rs2 rs1 imm) ∧
    (∃ t, exec (.sw 2 1 56) (bench0 0 []) = .next t) ∧ (bench0 0 []).mem.wf ∧
    (¬ ((effAddr 1 56 (bench0 0 [])).toNat ≤ 55 ∧ 55 < (effAddr 1 56 (bench0 0 [])).toNat + 4)) ∧
    ¬ ((effAddr 1 56 (bench0 0 [])).toNat ≤ 60 ∧ 60 < (effAddr 1 56 (bench0 0 [])).toNat + 4) :=
  ⟨⟨⟨_, rfl⟩, fun _ _ _ h => by cases h⟩, ⟨_, rfl⟩, by decide, by decide, by decide⟩
theorem witness_UnnamedRegistersHaveNoInfluence : 1 ∉ (Instr.add 1 2 3).sources ∧ (31 : RegIdx) ∉ (Instr.sw 2 1 0).sources := by
  decide
theorem witness_PolicyMattersOnlyThroughRegisterZero : 0 ∉ (Instr.sub 1 2 3).sources ∧ (Instr.sub 1 2 3).rd? ≠ some 0 ∧
    0 ∉ (Instr.beq 1 2 4).sources ∧ (Instr.beq 1 2 4).rd? ≠ some 0 := by decide
theorem witness_HardwiredZeroSlotIsInvisible : (bench .hardwired 64 0 [(0, 5)] []).cfg.x0Policy = .hardwired := rfl
theorem witness_WhoRaisesWhat : decode 0x00000073 = .error .unknownOpcode ∧
    ((∀ rd rs1 imm, Instr.jal 1 16 ≠ .lw rd rs1 imm) ∧ ∀ rs2 rs1 imm, Instr.jal 1 16 ≠ .sw rs2 rs1 imm) ∧
    (access (.read 32) (bench0 0 [])).2 = .error (.invalidRegisterIndex 32) ∧
    (access (.write 32 1) (bench0 0 [])).2 = .error (.invalidRegisterIndex 32) ∧
    (access (.loadWord 61) (bench0 0 [])).2 = .error (.outOfBoundsMemoryAccess 61) ∧
    (access (.storeWord 61 1) (bench0 0 [])).2 = .error (.outOfBoundsMemoryAccess 61) :=
  ⟨by decide, ⟨fun _ _ _ h => (by cases h), fun _ _ _ h => (by cases h)⟩, rfl, rfl, rfl, rfl⟩
theorem witness_ErrorsLeaveStateUnchanged :
    StandsAtPc 0x0220AEA3 (launch [0x0220AEA3] (bench0 0 [])) ∧
    stepWord 0x0220AEA3 (launch [0x0220AEA3] (bench0 0 [])) = .fault (.raised (.outOfBoundsMemoryAccess 61)) ∧
    StopsFaulted 1 (launch [0x0220AEA3] (bench0 0 [])) (.outOfBoundsMemoryAccess 61) (launch [0x0220AEA3] (bench0 0 [])) ∧
    (access (.storeWord 61 1) (bench0 0 [])).2 = .error (.outOfBoundsMemoryAccess 61) := ⟨⟨rfl, rfl, rfl⟩, rfl, rfl, rfl⟩
theorem witness_StepExecutesDecodedInstruction : decode 0x00108093 = .ok (.addi 1 1 1) ∧
    (present 0x00108093 (bench0 0 [])).presented = some 0x00108093 ∧ refusedProgram.presented = none ∧
    refusedProgram.pc.toNat % 4 = 0 ∧ refusedProgram.prog[refusedProgram.pc.toNat / 4]? = some 0x00108093 := by decide
theorem witness_RunLoopFollowsHarness : (launch [0x00108093] (bench0 1 [])).presented = none ∧
    (launch [0x00108093] (bench0 1 [])).pc.toNat % 4 ≠ 0 ∧
    (launch [0x00108093] (bench0 4 [])).prog.length ≤ (launch [0x00108093] (bench0 4 [])).pc.toNat / 4 ∧
    refusedProgram.prog[refusedProgram.pc.toNat / 4]? = some 0x00108093 ∧
    (∃ t, stepWord 0x00108093 refusedProgram = .next t) ∧
    stepWord 0x00000073 refusedProgram = .fault (.raised (.decodeNotImplemented .unknownOpcode)) ∧
    EndsNormally 2 (launch [0x00108093] (bench0 0 [])) (launch [0x00108093] (bench0 4 [(1, 1)])) :=
  ⟨rfl, by decide, by decide, rfl, ⟨_, rfl⟩, rfl, rfl⟩
theorem witness_RunKeepsProgramAndInvariant : State.reset.Inv ∧ EndsNormally 1 State.reset State.reset ∧
    ∃ e t, StopsFaulted 2 refusedProgram e t :=
  ⟨⟨by decide, by decide, by decide, fun _ => rfl⟩, emptyProgram_ends, _, _, refusedProgram_faults⟩
theorem witness_LargerBoundKeepsVerdict : EndsNormally 1 State.reset State.reset ∧
    ∃ e t, StopsFaulted 2 refusedProgram e t := ⟨emptyProgram_ends, _, _, refusedProgram_faults⟩
theorem witness_AccessorsCheckIndex : 31 < 32 ∧ 31 ≤ 31 := by decide
theorem witness_AccessorsChangeOnlyTheirTarget : 0 < 32 ∧ 31 < 32 := by decide
theorem witness_ResetMeetsInvariant : Config.wf ⟨0, .hardwired⟩ ∧ Config.wf ⟨2147483648, .ordinary⟩ ∧
    (bench0 4 [(1, 1)]).cfg.wf := by decide
theorem witness_StepKeepsInvariant : runningState.Inv ∧ ∃ t, step runningState = .next t :=
  ⟨runningState_inv, runningState_completes⟩
theorem witness_AccessorsKeepInvariant : runningState.Inv := runningState_inv
theorem witness_StepKeepsPcEven : runningState.pc.toNat % 2 = 0 ∧ ∃ t, step runningState = .next t :=
  ⟨by decide, runningState_completes⟩
/-- From an odd pc: JALR goes to an even one, another instruction keeps it odd. -/
theorem witness_OnlyJalrChangesPcParity : decode 0x00A100E7 = .ok (.jalr 1 2 10) ∧
    (∃ t, exec (.jalr 1 2 10) (bench0 5 [(2, 15)]) = .next t ∧ t.pc.toNat % 2 = 0) ∧ decode 0x00308563 = .ok (.beq 1 3 10) ∧
    (∃ t, exec (.beq 1 3 10) (bench0 5 []) = .next t ∧ t.pc.toNat % 2 = 1) :=
  ⟨by decide, ⟨_, rfl, by decide⟩, by decide, ⟨_, rfl, by decide⟩⟩

end Sys2Proof.Tests
end

/-! Proofs of the family `10_state.md`: the register file, the pc, the frame of every instruction, and what an instruction
depends on. The statements are those of Obligations.lean. -/

namespace Sys2Proof.Machine

/-! What an instruction depends on: its sources, the pc, the Memory and `MEM_SIZE`. -/

/-- Everything instruction `i` looks at is the same in `s` and `s'`. -/
structure AgreeFor (i : Instr) (s s' : State) : Prop where
  sources : ∀ r ∈ i.sources, s'.readReg r = s.readReg r
  pc : s'.pc = s.pc
  mem : s'.mem = s.mem
  memSize : s'.cfg.memSize = s.cfg.memSize

theorem AgreeFor.nextPc {i : Instr} {s s' : State} (h : AgreeFor i s s') : s'.nextPc = s.nextPc := by
  simp only [State.nextPc, h.pc]

theorem AgreeFor.pcRelative {i : Instr} {s s' : State} (h : AgreeFor i s s') (imm : Word) :
    pcRelative imm s' = pcRelative imm s := by
  simp only [Machine.pcRelative, h.pc]

theorem AgreeFor.inBounds {i : Instr} {s s' : State} (h : AgreeFor i s s') (a : Word) :
    inBounds s' a ↔ inBounds s a := by
  simp only [Machine.inBounds, h.memSize]

theorem AgreeFor.effAddr {i : Instr} {s s' : State} (h : AgreeFor i s s') {rs1 : RegIdx} (hr : rs1 ∈ i.sources)
    (imm : Word) : effAddr rs1 imm s' = effAddr rs1 imm s := by
  simp only [Machine.effAddr, h.sources rs1 hr]

/-- Two runs of one instruction from states that agree for it do the same: write one value to `rd` and go to one target;
go to one target; put one memory in place and go to one target; or end with one fault. -/
theorem exec_pair_cases {i : Instr} {s s' : State} (h : AgreeFor i s s') :
    (∃ rd v p, i.rd? = some rd ∧ exec i s = writeAndGo rd v p s ∧ exec i s' = writeAndGo rd v p s') ∨
      (i.rd? = none ∧ ∃ p, exec i s = .next (s.setPc p) ∧ exec i s' = .next (s'.setPc p)) ∨
      (i.rd? = none ∧ ∃ m p, exec i s = .next (({ s with mem := m } : State).setPc p) ∧
        exec i s' = .next (({ s' with mem := m } : State).setPc p)) ∨
      ∃ e, exec i s = .fault e ∧ exec i s' = .fault e := by
  have hsrc := h.sources
  cases i
  case lw rd rs1 imm =>
    have ha := h.effAddr (rs1 := rs1) (by simp [Instr.sources]) imm
    by_cases hb : inBounds s (effAddr rs1 imm s)
    · refine .inl ⟨rd, _, _, rfl, execLw_inBounds rd rs1 imm s hb, ?_⟩
      rw [exec, execLw_inBounds rd rs1 imm s' (by rwa [ha, h.inBounds]), ha, h.mem, writeAndAdvance, h.nextPc]
    · refine .inr (.inr (.inr ⟨_, execLw_outOfBounds rd rs1 imm s hb, ?_⟩))
      rw [exec, execLw_outOfBounds rd rs1 imm s' (by rwa [ha, h.inBounds]), ha]
  case sw rs2 rs1 imm =>
    have ha := h.effAddr (rs1 := rs1) (by simp [Instr.sources]) imm
    by_cases hb : inBounds s (effAddr rs1 imm s)
    · refine .inr (.inr (.inl ⟨rfl, _, _, execSw_inBounds rs2 rs1 imm s hb, ?_⟩))
      rw [exec, execSw_inBounds rs2 rs1 imm s' (by rwa [ha, h.inBounds]), ha, h.mem, h.nextPc,
        hsrc rs2 (by simp [Instr.sources])]
    · refine .inr (.inr (.inr ⟨_, execSw_outOfBounds rs2 rs1 imm s hb, ?_⟩))
      rw [exec, execSw_outOfBounds rs2 rs1 imm s' (by rwa [ha, h.inBounds]), ha]
  case beq | bne | blt | bge | bltu | bgeu =>
    refine .inr (.inl ⟨rfl, _, rfl, ?_⟩)
    simp only [Instr.sources, List.forall_mem_cons] at hsrc
    simp only [exec, execBeq, execBne, execBlt, execBge, execBltu, execBgeu, branchTo, hsrc, h.pcRelative, h.nextPc]
  all_goals
    refine .inl ⟨_, _, _, rfl, rfl, ?_⟩
    simp only [Instr.sources, List.forall_mem_cons] at hsrc
    simp only [exec, execLui, execAuipc, execJal, execJalr, execAddi, execSlti, execSltiu, execSlli, execSrli, execSrai,
      execAdd, execSub, execSll, execSlt, execSltu, execXor, execSrl, execSra, execOr, execAnd, writeAndAdvance,
      jalrTarget, regShamt, hsrc, h.pcRelative, h.nextPc]

/-- A change `f` of the state that instruction `i` does not see shows after it as `g`, when `f` before each kind of
effect is `g` after it. -/
theorem exec_commutes {i : Instr} {s : State} {f g : State → State} (h : AgreeFor i s (f s))
    (hreg : ∀ rd v p, i.rd? = some rd → ((f s).writeReg rd v).setPc p = g ((s.writeReg rd v).setPc p))
    (hpc : i.rd? = none → ∀ p, (f s).setPc p = g (s.setPc p))
    (hmem : i.rd? = none → ∀ m p,
      ({ f s with mem := m } : State).setPc p = g (({ s with mem := m } : State).setPc p)) :
    exec i (f s) = mapNext g (exec i s) := by
  rcases exec_pair_cases h with
    ⟨rd, v, p, hrd, hs, hf⟩ | ⟨hrd, p, hs, hf⟩ | ⟨hrd, m, p, hs, hf⟩ | ⟨e, hs, hf⟩
  · rw [hs, hf, writeAndGo, writeAndGo, hreg rd v p hrd, mapNext]
  · rw [hs, hf, hpc hrd, mapNext]
  · rw [hs, hf, hmem hrd, mapNext]
  · rw [hs, hf, mapNext]

/-! Another value in a register that is no source. -/

theorem setMem_writeReg (s : State) (k : RegIdx) (v : Word) (m : Memory) :
    ({ s.writeReg k v with mem := m } : State) = ({ s with mem := m } : State).writeReg k v := by
  by_cases hz : hardwiredZero s k
  · rw [writeReg_hardwired s k v hz, writeReg_hardwired { s with mem := m } k v hz]
  · rw [writeReg_ordinary s k v hz, writeReg_ordinary { s with mem := m } k v hz]

theorem agreeFor_writeReg {i : Instr} (s : State) {k : RegIdx} (v : Word) (hk : k ∉ i.sources) :
    AgreeFor i s (s.writeReg k v) where
  sources r hr := by rw [readReg_writeReg, if_neg (fun h : r = k ∧ _ => hk (h.1 ▸ hr))]
  pc := writeReg_pc s k v
  mem := writeReg_mem s k v
  memSize := by rw [writeReg_cfg]

/-- Settles O43: the write of `k` is overwritten by a write of `rd = k`, and commutes with every other effect. -/
theorem unnamedRegistersHaveNoInfluence : Obligations.UnnamedRegistersHaveNoInfluence := by
  intro i s k v hk
  refine exec_commutes (f := (·.writeReg k v)) (agreeFor_writeReg s v hk) ?_ ?_ ?_
  · intro rd x p hrd
    by_cases he : rd = k
    · rw [if_pos (by rw [hrd, he]), he, writeReg_writeReg]
    · rw [if_neg (by rw [hrd]; exact fun h => he (Option.some.inj h)), setPc_writeReg,
        writeReg_comm s k rd v x (Ne.symm he)]
  · intro hrd p
    simp only [hrd, reduceCtorEq, if_false, setPc_writeReg]
  · intro hrd m p
    simp only [hrd, reduceCtorEq, if_false, setPc_writeReg, setMem_writeReg]

/-! The other register-0 policy. -/

theorem not_hardwiredZero {r : RegIdx} (hr : r ≠ 0) (s : State) : ¬ hardwiredZero s r := fun h => hr h.1

/-- A register that is not hard-wired reads its stored entry. -/
theorem readReg_ordinary (s : State) (r : RegIdx) (h : ¬ hardwiredZero s r) : s.readReg r = s.regs[r] := by
  unfold State.readReg; rw [if_neg h]

theorem readReg_withPolicy (p : X0Policy) (s : State) {r : RegIdx} (hr : r ≠ 0) :
    (withPolicy p s).readReg r = s.readReg r := by
  rw [readReg_ordinary _ r (not_hardwiredZero hr _), readReg_ordinary s r (not_hardwiredZero hr s)]
  rfl

theorem writeReg_withPolicy (p : X0Policy) (s : State) {r : RegIdx} (hr : r ≠ 0) (v : Word) :
    (withPolicy p s).writeReg r v = withPolicy p (s.writeReg r v) := by
  rw [writeReg_ordinary _ r v (not_hardwiredZero hr _), writeReg_ordinary s r v (not_hardwiredZero hr s)]
  rfl

theorem agreeFor_withPolicy {i : Instr} (p : X0Policy) (s : State) (h0 : 0 ∉ i.sources) :
    AgreeFor i s (withPolicy p s) where
  sources _ hr := readReg_withPolicy p s (fun h => h0 (h ▸ hr))
  pc := rfl
  mem := rfl
  memSize := rfl

/-- Settles O44: the policy is looked at only where register 0 is read or written. -/
theorem policyMattersOnlyThroughRegisterZero : Obligations.PolicyMattersOnlyThroughRegisterZero := by
  intro i s p hsrc hrd0
  refine exec_commutes (agreeFor_withPolicy p s hsrc) ?_ (fun _ _ => rfl) (fun _ _ _ => rfl)
  intro rd v q hrd
  have hne : rd ≠ 0 := fun h => hrd0 (h ▸ hrd)
  rw [writeReg_withPolicy p s hne]
  rfl

/-! Another value in the stored entry of a hard-wired register 0. -/

theorem readReg_withZeroSlot (v : Word) {s : State} (hs : s.cfg.x0Policy = .hardwired) (r : RegIdx) :
    (withZeroSlot v s).readReg r = s.readReg r := by
  by_cases hr : r = 0
  · rw [readReg_hardwired s r ⟨hr, hs⟩, readReg_hardwired (withZeroSlot v s) r ⟨hr, hs⟩]
  · rw [readReg_ordinary _ r (not_hardwiredZero hr _), readReg_ordinary s r (not_hardwiredZero hr s)]
    exact Vector.getElem_set_ne (0 : RegIdx).isLt r.isLt (Fin.val_ne_of_ne (Ne.symm hr))

theorem writeReg_withZeroSlot (v : Word) {s : State} (hs : s.cfg.x0Policy = .hardwired) (r : RegIdx) (x : Word) :
    (withZeroSlot v s).writeReg r x = withZeroSlot v (s.writeReg r x) := by
  by_cases hr : r = 0
  · rw [writeReg_hardwired s r x ⟨hr, hs⟩, writeReg_hardwired (withZeroSlot v s) r x ⟨hr, hs⟩]
  · rw [writeReg_ordinary _ r x (not_hardwiredZero hr _), writeReg_ordinary s r x (not_hardwiredZero hr s)]
    simp only [withZeroSlot, State.mk.injEq, true_and, and_true]
    exact Vector.set_comm _ _ (Fin.val_ne_of_ne (Ne.symm hr))

theorem agreeFor_withZeroSlot (i : Instr) (v : Word) {s : State} (hs : s.cfg.x0Policy = .hardwired) :
    AgreeFor i s (withZeroSlot v s) where
  sources r _ := readReg_withZeroSlot v hs r
  pc := rfl
  mem := rfl
  memSize := rfl

/-- Settles O45: no read answers the stored entry, and every write leaves it alone. -/
theorem hardwiredZeroSlotIsInvisible : Obligations.HardwiredZeroSlotIsInvisible := by
  intro i s v hs
  refine exec_commutes (agreeFor_withZeroSlot i v hs) ?_ (fun _ _ => rfl) (fun _ _ _ => rfl)
  intro rd x p _
  rw [writeReg_withZeroSlot v hs]
  rfl

/-! The pc and the frame of every instruction. -/

/-- The reference harness executes the word that stands at the pc. -/
theorem step_standsAtPc {w : Word} {s : State} {i : Instr} (h : StandsAtPc w s) (hd : decode w = .ok i) :
    step s = exec i s := by
  obtain ⟨hin, hpc, hprog⟩ := h
  simp only [step, fetch, hin, progWord, hpc, hprog, ne_eq, not_true, if_false, Option.map_some, stepWord, hd]

/-- An error of the instruction at the pc stops the run in the state before it (rule R172). -/
theorem stopsFaulted_of_exec {i : Instr} {s : State} {e : CoreError} (h : exec i s = .fault (.raised e)) (w : Word)
    (hw : StandsAtPc w s) (hd : decode w = .ok i) : StopsFaulted 1 s e s := by
  simp only [StopsFaulted, run, step_standsAtPc hw hd, h]

/-- Settles O41: LW and SW complete in bounds and raise their error outside; every other instruction completes, a branch
at the target its condition chooses. -/
theorem nextPcFollowsTable : Obligations.NextPcFollowsTable := by
  intro i s
  cases i
  case lw rd rs1 imm =>
    by_cases hb : inBounds s (effAddr rs1 imm s)
    · exact .inl ⟨_, execLw_inBounds rd rs1 imm s hb, rfl⟩
    · have hf := execLw_outOfBounds rd rs1 imm s hb
      exact .inr ⟨_, hf, stopsFaulted_of_exec (i := .lw rd rs1 imm) hf⟩
  case sw rs2 rs1 imm =>
    by_cases hb : inBounds s (effAddr rs1 imm s)
    · exact .inl ⟨_, execSw_inBounds rs2 rs1 imm s hb, rfl⟩
    · have hf := execSw_outOfBounds rs2 rs1 imm s hb
      exact .inr ⟨_, hf, stopsFaulted_of_exec (i := .sw rs2 rs1 imm) hf⟩
  case beq | bne | blt | bge | bltu | bgeu =>
    refine .inl ⟨_, rfl, ?_⟩
    simp [condEq, condNe, condLt, condGe, condLtu, condGeu, ltSigned, ltUnsigned, pcRelative, State.nextPc, instrWidth]
  all_goals exact .inl ⟨_, rfl, rfl⟩

/-- Settles O42: the three things a completing instruction can do, each with its frame. -/
theorem onlyNamedRegisterAndStoreChange : Obligations.OnlyNamedRegisterAndStoreChange := by
  intro i s t h
  rcases exec_next_cases i s t h with ⟨rd, v, p, hrd, rfl⟩ | ⟨hrd, p, rfl⟩ | ⟨rs2, rs1, imm, rfl, -, rfl⟩
  · refine ⟨fun r hr => ?_, by simp [SameHarness], fun _ _ => by simp, fun _ _ _ _ _ _ _ => by simp⟩
    have hne : r ≠ rd := fun he => hr (he ▸ hrd)
    rw [setPc_readReg, readReg_writeReg, if_neg (fun hc => hne hc.1)]
  · exact ⟨fun _ _ => rfl, sameHarness_refl s, fun _ => sameMem_refl s, fun _ _ _ _ _ _ _ => rfl⟩
  · refine ⟨fun _ _ => rfl, sameHarness_refl s, fun hne => absurd rfl (hne rs2 rs1 imm), ?_⟩
    intro _ _ _ hi hwf a ha
    cases hi
    rw [setPc_mem, readByte_writeWord _ _ _ _ hwf, if_neg ha]

/-! The parity of the pc. -/

/-- The immediate JAL and the branches add to the pc (rules R130, R135). -/
def pcOffset? : Instr → Option Word
  | .jal _ imm => some imm
  | .beq _ _ imm | .bne _ _ imm | .blt _ _ imm | .bge _ _ imm | .bltu _ _ imm | .bgeu _ _ imm => some imm
  | _ => none

/-- Where a completing instruction goes: to the next address, by its offset, or, for JALR, to an address with bit 0
clear. -/
theorem exec_next_pc_cases {i : Instr} {s t : State} (h : exec i s = .next t) :
    t.pc = s.pc + 4 ∨ (∃ imm, pcOffset? i = some imm ∧ t.pc = s.pc + imm) ∨
      (i.mnemonic = .jalr ∧ ∃ a : Word, t.pc = a &&& 0xFFFFFFFE) := by
  rcases nextPcFollowsTable i s with ⟨t', ht', hpc⟩ | ⟨e, he, -⟩
  · obtain rfl : t = t' := by rw [h] at ht'; injection ht'
    cases i
    case jal => exact .inr (.inl ⟨_, rfl, hpc⟩)
    case jalr => exact .inr (.inr ⟨rfl, _, hpc⟩)
    case beq | bne | blt | bge | bltu | bgeu =>
      dsimp only at hpc
      split at hpc
      · exact .inr (.inl ⟨_, rfl, hpc⟩)
      · exact .inl hpc
    all_goals exact .inl hpc
  · rw [h] at he; cases he

/-- Bit 0 of a word is its parity. -/
theorem mod_two_eq_zero_of_getLsbD (v : Word) (h : v.getLsbD 0 = false) : v.toNat % 2 = 0 := by
  simpa [BitVec.getLsbD, Nat.testBit_zero] using h

theorem assembleB_even (r : BFmt) : (assembleB r).toNat % 2 = 0 := by
  apply mod_two_eq_zero_of_getLsbD
  rw [assembleB, getLsbD_sext _ 0 (by decide), if_pos (by decide), BitVec.getLsbD_append]
  simp

theorem assembleJ_even (r : JFmt) : (assembleJ r).toNat % 2 = 0 := by
  apply mod_two_eq_zero_of_getLsbD
  rw [assembleJ, getLsbD_sext _ 0 (by decide), if_pos (by decide), BitVec.getLsbD_append]
  simp

/-- The decoder assembles only even offsets (rules R72, R74, R76). -/
theorem select_pcOffset_even {o : Opcode} {w : Word} {i : Instr} {imm : Word} (h : select o w = some i)
    (hi : pcOffset? i = some imm) : imm.toNat % 2 = 0 := by
  cases o
  case jal =>
    cases h
    cases hi
    exact assembleJ_even _
  case branch =>
    simp only [select, selectBranch] at h
    split_ifs at h <;> cases h <;> cases hi <;> exact assembleB_even _
  case lui | auipc =>
    cases h
    cases hi
  all_goals
    simp only [select, selectJalr, selectLoad, selectStore, selectOpImm, selectOp, selectOpBase, selectOpAlt] at h
    split_ifs at h <;> cases h <;> cases hi

theorem and_fffffffe_even (a : Word) : (a &&& 0xFFFFFFFE).toNat % 2 = 0 := by
  apply mod_two_eq_zero_of_getLsbD
  simp

theorem add_even_mod_two (a b : Word) (h : b.toNat % 2 = 0) : (a + b).toNat % 2 = a.toNat % 2 := by
  rw [BitVec.toNat_add]
  omega

/-- Settles O59: 4 and every decoded offset are even, and JALR clears bit 0. -/
theorem onlyJalrChangesPcParity : Obligations.OnlyJalrChangesPcParity := by
  intro w i s t hd h
  rcases exec_next_pc_cases h with hpc | ⟨imm, hi, hpc⟩ | ⟨hm, a, hpc⟩
  · left
    rw [hpc, add_even_mod_two _ _ (by decide)]
  · left
    obtain ⟨-, o, -, hsel⟩ := (decode_eq_ok w i).1 hd
    rw [hpc, add_even_mod_two _ _ (select_pcOffset_even hsel hi)]
  · right
    exact ⟨hm, by rw [hpc]; exact and_fffffffe_even a⟩

theorem fetch_pc {s s' : State} {w : Word} (h : fetch s = some (w, s')) : s'.pc = s.pc := by
  rcases fetch_some_cases s s' w h with ⟨-, rfl⟩ | ⟨-, -, -, rfl⟩ <;> rfl

/-- Settles O58: the parity stays, or becomes even. -/
theorem stepKeepsPcEven : Obligations.StepKeepsPcEven := by
  intro s t hs h
  obtain ⟨w, s', i, hf, hd, he⟩ := step_next_cases s t h
  rcases onlyJalrChangesPcParity w i s' t hd he with hp | ⟨-, hp⟩
  · rw [hp, fetch_pc hf, hs]
  · exact hp

/-! Reset and the accessor port. -/

theorem readReg_resetOf (c : Config) (r : RegIdx) : (State.resetOf c).readReg r = 0 := by
  unfold State.readReg
  split
  · rfl
  · simp [State.resetOf]

theorem readReg_afterReset (s : State) (r : RegIdx) : s.afterReset.readReg r = 0 := readReg_resetOf s.cfg r

/-- Settles O54: the state after a reset is `State.resetOf` on the core's triple. -/
theorem resetClearsTheTriple : Obligations.ResetClearsTheTriple :=
  ⟨fun s => ⟨readReg_afterReset s, rfl, fun _ => rfl, rfl⟩, readReg_resetOf _, rfl, fun _ => rfl⟩

theorem resetOf_inv (c : Config) (hc : c.wf) : (State.resetOf c).Inv where
  cfgWf := hc
  memWf := ⟨List.Pairwise.nil, by simp⟩
  memInside := by simp
  zeroSlot _ := by simp [State.resetOf]

theorem afterReset_inv (s : State) (hc : s.cfg.wf) : s.afterReset.Inv := by
  obtain ⟨hcfg, hwf, hin, hzero⟩ := resetOf_inv s.cfg hc
  exact ⟨hcfg, hwf, hin, hzero⟩

/-- Settles O55: the empty Memory and the cleared registers meet the invariant. -/
theorem resetMeetsInvariant : Obligations.ResetMeetsInvariant :=
  ⟨resetOf_inv, resetOf_inv _ (by decide), afterReset_inv⟩

theorem setPc_inv {s : State} (h : s.Inv) (v : Word) : (s.setPc v).Inv := ⟨h.cfgWf, h.memWf, h.memInside, h.zeroSlot⟩

theorem writeReg_inv {s : State} (h : s.Inv) (r : RegIdx) (v : Word) : (s.writeReg r v).Inv := by
  by_cases hz : hardwiredZero s r
  · rwa [writeReg_hardwired s r v hz]
  · rw [writeReg_ordinary s r v hz]
    refine ⟨h.cfgWf, h.memWf, h.memInside, fun hp => ?_⟩
    have hne : r ≠ 0 := fun he => hz ⟨he, hp⟩
    exact (Vector.getElem_set_ne r.isLt (0 : RegIdx).isLt (Fin.val_ne_of_ne hne)).trans (h.zeroSlot hp)

/-- A word store in bounds keeps the invariant: the cells it adds lie inside `MEM_SIZE`. -/
theorem writeWord_inv {s : State} (h : s.Inv) {a : Word} (v : Word) (hb : inBounds s a) :
    ({ s with mem := s.mem.writeWord a.toNat v } : State).Inv where
  cfgWf := h.cfgWf
  memWf := writeWord_wf _ _ _ h.memWf
  memInside c hc := by
    rcases mem_writeWord _ _ _ c hc with ⟨-, hlt⟩ | hold
    · exact Nat.lt_of_lt_of_le hlt hb
    · exact h.memInside c hold
  zeroSlot := h.zeroSlot

/-- The accessors `read` and `write` with an index in range are the Register File's own two operations (rule R35). -/
theorem access_read {n : Nat} (h : n < 32) (s : State) :
    access (.read n) s = (s, .ok (some (s.readReg ⟨n, h⟩))) := dif_pos h

theorem access_write {n : Nat} (h : n < 32) (v : Word) (s : State) :
    access (.write n v) s = (s.writeReg ⟨n, h⟩ v, .ok none) := dif_pos h

theorem access_read_state (n : Nat) (s : State) : (access (.read n) s).1 = s := by
  simp only [access, accessRead]
  split <;> rfl

theorem access_write_outOfRange {n : Nat} (h : ¬ n < 32) (v : Word) (s : State) :
    access (.write n v) s = (s, .error (.invalidRegisterIndex n)) := dif_neg h

/-- Settles O57: each call leaves the state or makes one change that keeps the invariant. -/
theorem accessorsKeepInvariant : Obligations.AccessorsKeepInvariant := by
  intro c s h
  cases c with
  | read n => rwa [access_read_state]
  | write n v =>
    by_cases hn : n < 32
    · rw [access_write hn]
      exact writeReg_inv h _ v
    · rwa [access_write_outOfRange hn]
  | readPC => exact h
  | writePC v => exact setPc_inv h v
  | loadWord a => rwa [access_loadWord]
  | storeWord a v =>
    by_cases hb : inBounds s a
    · rw [access_storeWord_ok a v s _ (memWrite_inBounds s a v hb)]
      exact writeWord_inv h v hb
    · rwa [access_storeWord_error a v s _ (memWrite_outOfBounds s a v hb)]

/-! What the Register File and the accessor port answer. -/

/-- Settles O15: the laws of the Register File. -/
theorem registerFileHoldsLastWrite : Obligations.RegisterFileHoldsLastWrite :=
  ⟨fun s i j v => readReg_writeReg s i j v,
    fun s hs => ⟨readReg_hardwired s 0 ⟨rfl, hs⟩, fun v => writeReg_hardwired s 0 v ⟨rfl, hs⟩⟩,
    readReg_resetOf, fun _ h v s => ⟨access_read h s, access_write h v s⟩⟩

theorem wentTo_setPc (s : State) (v : Word) : WentTo s (s.setPc v) v :=
  ⟨fun _ => rfl, rfl, fun _ => rfl, sameHarness_refl s⟩

theorem wroteReg_writeReg (s : State) (r : RegIdx) (v : Word) : WroteReg s (s.writeReg r v) r v s.pc :=
  ⟨fun j => readReg_writeReg s r j v, writeReg_pc s r v, fun a => by rw [writeReg_mem],
    writeReg_cfg s r v, writeReg_prog s r v, writeReg_presented s r v⟩

/-- Settles O53: `readPC` leaves the state, `writePC` is a write of the pc and `write` one of its register. -/
theorem accessorsChangeOnlyTheirTarget : Obligations.AccessorsChangeOnlyTheirTarget :=
  ⟨fun _ => rfl, fun v s => ⟨_, rfl, wentTo_setPc s v⟩,
    fun _ h v s => ⟨_, access_write h v s, wroteReg_writeReg s _ v⟩⟩

end Sys2Proof.Machine

/-! Proofs of the family `20_memory.md`: the word read and write, the bounds check, and the invariant along a step. The
statements are those of Obligations.lean. -/

namespace Sys2Proof.Machine

/-! The invariant along a step. -/

theorem fetch_inv {s s' : State} {w : Word} (h : s.Inv) (hf : fetch s = some (w, s')) : s'.Inv := by
  rcases fetch_some_cases s s' w hf with ⟨-, rfl⟩ | ⟨-, -, -, rfl⟩
  · exact ⟨h.cfgWf, h.memWf, h.memInside, h.zeroSlot⟩
  · exact h

/-- A completing instruction keeps the invariant: a store is in bounds, and the other two effects leave the Memory. -/
theorem exec_inv {i : Instr} {s t : State} (h : s.Inv) (he : exec i s = .next t) : t.Inv := by
  rcases exec_next_cases i s t he with ⟨rd, v, p, -, rfl⟩ | ⟨-, p, rfl⟩ | ⟨rs2, rs1, imm, -, hb, rfl⟩
  · exact setPc_inv (writeReg_inv h rd v) p
  · exact setPc_inv h p
  · exact setPc_inv (writeWord_inv h _ hb) _

/-- Settles O56: taking the word keeps the invariant, and so does the instruction it decodes to. -/
theorem stepKeepsInvariant : Obligations.StepKeepsInvariant := by
  intro s t h hstep
  obtain ⟨w, s', i, hf, -, he⟩ := step_next_cases s t hstep
  exact exec_inv (fetch_inv h hf) he

/-! A word in the Memory as a number, and its four bytes. -/

theorem toNat_readWord (m : Memory) (a : Nat) :
    (m.readWord a).toNat = (m.readByte a).toNat + 2 ^ 8 * (m.readByte (a + 1)).toNat +
      2 ^ 16 * (m.readByte (a + 2)).toNat + 2 ^ 24 * (m.readByte (a + 3)).toNat :=
  toNat_wordOfBytes _ _ _ _

theorem access_loadWord_inBounds {s : State} {a : Word} (h : inBounds s a) :
    access (.loadWord a) s = (s, .ok (some (s.mem.readWord a.toNat))) := by
  rw [access_loadWord, memRead_inBounds s a h]
  rfl

theorem access_loadWord_outOfBounds {s : State} {a : Word} (h : ¬ inBounds s a) :
    access (.loadWord a) s = (s, .error (.outOfBoundsMemoryAccess a)) := by
  rw [access_loadWord, memRead_outOfBounds s a h]
  rfl

/-- Settles O16: in bounds the word is made of its four bytes, outside both readers raise the error. -/
theorem wordReadIsLittleEndian : Obligations.WordReadIsLittleEndian := by
  refine fun s a => ⟨fun hb => ?_, fun hb => ?_⟩
  · exact ⟨_, memRead_inBounds s a hb, access_loadWord_inBounds hb, toNat_readWord s.mem a.toNat⟩
  · have hout : ¬ inBounds s a := Nat.not_le_of_gt hb
    exact ⟨memRead_outOfBounds s a hout, access_loadWord_outOfBounds hout⟩

/-- Putting a written word in the Memory stores its four bytes and keeps the pc and all the rest. -/
theorem storedWord_writeWord (s : State) (a : Nat) (v : Word) (h : s.mem.wf) :
    StoredWord s { s with mem := s.mem.writeWord a v } a v s.pc := by
  refine ⟨fun k hk => ?_, fun x hx => ?_, fun _ => rfl, rfl, sameHarness_refl s⟩
  · rw [readByte_writeWord _ _ _ _ h, if_pos ⟨by omega, by omega⟩, Nat.add_sub_cancel_left, toNat_byteOfWord]
  · rw [readByte_writeWord _ _ _ _ h, if_neg hx]

/-- Settles O17: in bounds the write is `Memory.writeWord`, outside both writers raise the error. -/
theorem wordWriteStoresFourBytes : Obligations.WordWriteStoresFourBytes := by
  refine fun s a v hwf => ⟨fun hb => ?_, fun hb => ?_⟩
  · have hw := memWrite_inBounds s a v hb
    exact ⟨_, hw, access_storeWord_ok a v s _ hw, storedWord_writeWord s a.toNat v hwf⟩
  · have hw := memWrite_outOfBounds s a v (Nat.not_le_of_gt hb)
    exact ⟨hw, access_storeWord_error a v s _ hw⟩

/-! The bounds check. -/

theorem memRead_memWrite_outOfBounds {s : State} {a : Word} (v : Word) (h : ¬ inBounds s a) :
    memRead s a = .error (.outOfBoundsMemoryAccess a) ∧ memWrite s a v = .error (.outOfBoundsMemoryAccess a) :=
  ⟨memRead_outOfBounds s a h, memWrite_outOfBounds s a v h⟩

/-- With `MEM_SIZE` in its range a word that ends past `2 ^ 31` is out of bounds (rules R40, R43). -/
theorem not_inBounds_of_ends_past {s : State} {a : Word} (hc : s.cfg.wf) (ha : 2 ^ 31 < a.toNat + 4) :
    ¬ inBounds s a := fun hb => (hb.trans hc).not_gt ha

theorem memRead_ok_iff (s : State) (a : Word) : (∃ x, memRead s a = .ok x) ↔ inBounds s a := by
  by_cases hb : inBounds s a
  · simp [memRead_inBounds s a hb, hb]
  · simp [memRead_outOfBounds s a hb, hb]

theorem memWrite_ok_iff (s : State) (a v : Word) : (∃ t, memWrite s a v = .ok t) ↔ inBounds s a := by
  by_cases hb : inBounds s a
  · simp [memWrite_inBounds s a v hb, hb]
  · simp [memWrite_outOfBounds s a v hb, hb]

/-- Settles O18: an address with bit 31 set is at least `2 ^ 31`, the largest `MEM_SIZE`. -/
theorem effectiveAddressWrapsUnsigned : Obligations.EffectiveAddressWrapsUnsigned := by
  refine ⟨fun rs1 imm s => BitVec.toNat_add _ _, fun s a v hc ha => ?_⟩
  have hge : 2 ^ 31 ≤ a.toNat := Nat.ge_two_pow_of_testBit ha
  exact memRead_memWrite_outOfBounds v (not_inBounds_of_ends_past hc (by omega))

/-- Settles O19: the sum `u(addr) + 4` of the check is one of natural numbers. -/
theorem boundsCheckDoesNotWrap : Obligations.BoundsCheckDoesNotWrap := by
  refine fun s a v => ⟨fun hc ha => ?_, fun hm => ?_, fun hm => ?_⟩
  · exact memRead_memWrite_outOfBounds v (not_inBounds_of_ends_past hc (by omega))
  · exact memRead_memWrite_outOfBounds v (by unfold inBounds; omega)
  · have hiff : inBounds s a ↔ a.toNat ≤ s.cfg.memSize - 4 := (Nat.le_sub_iff_add_le hm).symm
    exact ⟨(memRead_ok_iff s a).trans hiff, (memWrite_ok_iff s a v).trans hiff⟩

/-! A word read after word writes. -/

/-- Settles O20: the write keeps `MEM_SIZE`, so the read is in bounds too, and the Memory gives the word back. -/
theorem storeThenLoadReturnsValue : Obligations.StoreThenLoadReturnsValue := by
  intro s a v hwf hb
  have hread := readWord_writeWord s.mem a.toNat v hwf
  exact ⟨_, memWrite_inBounds s a v hb, Eq.trans (memRead_inBounds _ a hb) (congrArg Except.ok hread)⟩

/-- The word one byte above the first of two adjacent words takes three bytes of the first and one of the second. -/
theorem readWord_adjacent_writeWord (m : Memory) (a : Nat) (v w : Word) (h : m.wf) :
    ((m.writeWord a v).writeWord (a + 4) w).readWord (a + 1) =
      wordOfBytes (byteOfWord v 1) (byteOfWord v 2) (byteOfWord v 3) (byteOfWord w 0) := by
  have hfirst : ∀ k, k < 4 → ((m.writeWord a v).writeWord (a + 4) w).readByte (a + k) = byteOfWord v k := by
    intro k hk
    rw [readByte_writeWord _ _ _ _ (writeWord_wf m a v h), if_neg (by omega), readByte_writeWord _ _ _ _ h,
      if_pos ⟨by omega, by omega⟩, Nat.add_sub_cancel_left]
  have hsecond : ((m.writeWord a v).writeWord (a + 4) w).readByte (a + 4) = byteOfWord w 0 := by
    rw [readByte_writeWord _ _ _ _ (writeWord_wf m a v h), if_pos ⟨by omega, by omega⟩, Nat.sub_self]
  simp only [Memory.readWord, Nat.add_assoc, Nat.reduceAdd, hfirst 1, hfirst 2, hfirst 3, hsecond, Nat.reduceLT]

/-- Dropping the lowest byte of `v` and putting the lowest byte of `w` on top, as a number. -/
theorem toNat_wordOfBytes_shifted (v w : Word) :
    (wordOfBytes (byteOfWord v 1) (byteOfWord v 2) (byteOfWord v 3) (byteOfWord w 0)).toNat =
      v.toNat / 2 ^ 8 + 2 ^ 24 * (w.toNat % 2 ^ 8) := by
  have hv := v.isLt
  simp only [toNat_wordOfBytes, toNat_byteOfWord]
  omega

/-- Settles O21: no address wraps below `2 ^ 31`, so the three accesses overlap as their integers do. -/
theorem overlappingReadPinsByteOrder : Obligations.OverlappingReadPinsByteOrder := by
  intro s a v w hwf hc hb
  have h4 : (a + 4).toNat = a.toNat + 4 := BitVec.toNat_add_of_lt (show a.toNat + 4 < 2 ^ 32 by omega)
  have h1 : (a + 1).toNat = a.toNat + 1 := BitVec.toNat_add_of_lt (show a.toNat + 1 < 2 ^ 32 by omega)
  refine ⟨_, _, _, memWrite_inBounds s a v (le_trans (by omega) hb),
    memWrite_inBounds _ (a + 4) w (le_trans (by omega) hb), memRead_inBounds _ (a + 1) (le_trans (by omega) hb), ?_⟩
  simp only [h4, h1, readWord_adjacent_writeWord s.mem a.toNat v w hwf, toNat_wordOfBytes_shifted]

end Sys2Proof.Machine

/-! Proofs of the family `30_encoding.md`: bit fields, the immediates, what the decoder refuses, and the two round trips of
`decode` and `encode`. The statements are those of Obligations.lean. -/

namespace Sys2Proof

open Machine (assembleB_even assembleJ_even)
open Laws.EncodeRow (fieldsU_and fieldsJ_and fieldsI_and fieldsShift_and fieldsS_and fieldsB_and fieldsR_and
  match_and_mask or_and_of_fields)

/-! Bit fields (rules R9, R60). -/

theorem toNat_extractBits (w : Word) (lo hi : Nat) :
    (extractBits w lo hi).toNat = w.toNat / 2 ^ lo % 2 ^ (hi - lo + 1) := by
  rw [extractBits, BitVec.extractLsb'_toNat, Nat.shiftRight_eq_div_pow]

/-- Settles O1: extraction is a shift right and a truncation. -/
theorem extractBitsIsDivMod : Obligations.ExtractBitsIsDivMod := fun w lo hi _ _ => toNat_extractBits w lo hi

/-- Fields of two words are equal when their bits are, wherever each field stands. -/
theorem extractLsb'_congr {v w : Word} {lo lo' n : Nat} (h : ∀ j < n, v.getLsbD (lo + j) = w.getLsbD (lo' + j)) :
    v.extractLsb' lo n = w.extractLsb' lo' n := by
  apply BitVec.eq_of_getLsbD_eq
  intro j hj
  simp only [BitVec.getLsbD_extractLsb', h j hj]

@[simp] theorem extractBits_or (v w : Word) (lo hi : Nat) :
    extractBits (v ||| w) lo hi = extractBits v lo hi ||| extractBits w lo hi :=
  BitVec.extractLsb'_or

/-- A field under the mask is that of the masked word. -/
theorem extractBits_of_and_eq {w mask b : Word} (h : w &&& mask = b) (lo hi : Nat)
    (hm : ∀ j, j < hi - lo + 1 → mask.getLsbD (lo + j) = true) : extractBits w lo hi = extractBits b lo hi := by
  rw [← h, extractBits_and w mask lo hi hm]

/-! The immediates bit by bit (rules R70 to R74). -/

theorem getLsbD_immI (w : Word) {i : Nat} (hi : i < 32) :
    (immI w).getLsbD i = if i ≤ 10 then w.getLsbD (20 + i) else w.getLsbD 31 := by
  simp only [immI, decodeI, getLsbD_sext _ i hi, getLsbD_extractBits]
  grind

theorem getLsbD_immS (w : Word) {i : Nat} (hi : i < 32) : (immS w).getLsbD i =
    if i ≤ 4 then w.getLsbD (7 + i) else if i ≤ 10 then w.getLsbD (20 + i) else w.getLsbD 31 := by
  simp only [immS, assembleS, decodeS, getLsbD_sext _ i hi, BitVec.getLsbD_append, getLsbD_extractBits]
  grind

theorem getLsbD_immB (w : Word) {i : Nat} (hi : i < 32) : (immB w).getLsbD i =
    if i = 0 then false else if i ≤ 4 then w.getLsbD (7 + i) else if i ≤ 10 then w.getLsbD (20 + i)
      else if i = 11 then w.getLsbD 7 else w.getLsbD 31 := by
  simp only [immB, assembleB, decodeB, getLsbD_sext _ i hi, BitVec.getLsbD_append, getLsbD_extractBits]
  grind

theorem getLsbD_immU (w : Word) (i : Nat) : (immU w).getLsbD i = (decide (12 ≤ i) && w.getLsbD i) := by
  simp only [immU, decodeU, BitVec.getLsbD_append, getLsbD_extractBits]
  grind

theorem getLsbD_immJ (w : Word) {i : Nat} (hi : i < 32) : (immJ w).getLsbD i =
    if i = 0 then false else if i ≤ 10 then w.getLsbD (20 + i) else if i = 11 then w.getLsbD 20
      else if i ≤ 19 then w.getLsbD i else w.getLsbD 31 := by
  simp only [immJ, assembleJ, decodeJ, getLsbD_sext _ i hi, BitVec.getLsbD_append, getLsbD_extractBits]
  grind

/-! The immediates' ranges: every assembled immediate is well-formed (rule R81). -/

/-- Sign extension stays in the signed range of its argument's width (rule R11). -/
theorem toInt_sext_range {k : Nat} (v : BitVec (k + 1)) (hk : k < 32) :
    -2 ^ k ≤ (sext v).toInt ∧ (sext v).toInt < 2 ^ k := by
  rw [toInt_sext v hk]
  exact ⟨v.le_toInt, v.toInt_lt⟩

theorem toInt_even {v : Word} (h : v.toNat % 2 = 0) : v.toInt % 2 = 0 := by
  rw [BitVec.toInt_eq_toNat_cond]
  split <;> omega

theorem toNat_append_zero {n : Nat} (v : BitVec n) (k : Nat) : (v ++ 0#k).toNat = v.toNat * 2 ^ k := by
  rw [BitVec.toNat_append, Nat.shiftLeft_eq, BitVec.toNat_ofNat, Nat.zero_mod, Nat.or_zero]

theorem toNat_immU (w : Word) : (immU w).toNat = (extractBits w 12 31).toNat * 4096 :=
  toNat_append_zero (extractBits w 12 31) 12

theorem immI_wf (w : Word) : immWf12 (immI w) := by
  obtain ⟨hl, hu⟩ := toInt_sext_range (k := 11) (extractBits w 20 31) (by decide)
  exact ⟨hl, Int.le_of_lt_add_one hu⟩

theorem immS_wf (w : Word) : immWf12 (immS w) := by
  obtain ⟨hl, hu⟩ := toInt_sext_range (k := 11) ((decodeS w).immHi ++ (decodeS w).immLo) (by decide)
  exact ⟨hl, Int.le_of_lt_add_one hu⟩

theorem immB_wf (w : Word) : immWfB (immB w) := by
  obtain ⟨hl, hu⟩ : -2 ^ 12 ≤ (immB w).toInt ∧ (immB w).toInt < 2 ^ 12 := toInt_sext_range (k := 12) _ (by decide)
  have he : (immB w).toInt % 2 = 0 := toInt_even (assembleB_even (decodeB w))
  exact ⟨hl, by omega, he⟩

theorem immU_wf (w : Word) : immWfU (immU w) := by
  rw [immWfU, toNat_immU, Nat.mul_mod_left]

theorem immJ_wf (w : Word) : immWfJ (immJ w) := by
  obtain ⟨hl, hu⟩ : -2 ^ 20 ≤ (immJ w).toInt ∧ (immJ w).toInt < 2 ^ 20 := toInt_sext_range (k := 20) _ (by decide)
  have he : (immJ w).toInt % 2 = 0 := toInt_even (assembleJ_even (decodeJ w))
  exact ⟨hl, by omega, he⟩

/-- Settles O2: `immI` is `sext_12` of `w[31:20]`. -/
theorem immediateIBitsAndRange : Obligations.ImmediateIBitsAndRange := by
  refine ⟨fun w => ⟨fun i hi => getLsbD_immI w hi, immI_wf w⟩, fun v => ⟨fun i hi => ?_, fun i hi h12 => ?_⟩,
    by decide, by decide⟩
  · rw [getLsbD_sext v i (by omega), if_pos hi]
  · rw [getLsbD_sext v i hi, if_neg (by omega)]

/-- Settles O3: the bits of the two fragments, and the range of `sext_12`. -/
theorem immediateSBitsAndRange : Obligations.ImmediateSBitsAndRange :=
  fun w => ⟨fun _ hi => getLsbD_immS w hi, immS_wf w⟩

/-- Settles O4: the bits of the four fragments, the range of `sext_13`, and the clear bit 0. -/
theorem immediateBBitsAndRange : Obligations.ImmediateBBitsAndRange :=
  fun w => ⟨fun _ hi => getLsbD_immB w hi, immB_wf w⟩

/-- Settles O6: the bits of the four fragments, the range of `sext_21`, and the clear bit 0. -/
theorem immediateJBitsAndRange : Obligations.ImmediateJBitsAndRange :=
  fun w => ⟨fun _ hi => getLsbD_immJ w hi, immJ_wf w⟩

theorem immU_eq_and (w : Word) : immU w = w &&& 0xFFFFF000 := by
  have hmask : ∀ i < 32, (0xFFFFF000 : Word).getLsbD i = decide (12 ≤ i) := by decide
  apply BitVec.eq_of_getLsbD_eq
  intro i hi
  rw [getLsbD_immU, BitVec.getLsbD_and, hmask i hi, Bool.and_comm]

theorem immU_eq_sext_shiftLeft (w : Word) : immU w = sext (extractBits w 12 31) <<< 12 := by
  apply BitVec.eq_of_getLsbD_eq
  intro i hi
  rw [getLsbD_immU, BitVec.getLsbD_shiftLeft, getLsbD_sext _ _ (by omega), getLsbD_extractBits]
  grind

/-- Settles O5: the low 12 bits of the U immediate are clear, the others are the word's own. -/
theorem immediateUIsHighPart : Obligations.ImmediateUIsHighPart := by
  refine ⟨fun w => ?_, fun w h => ?_⟩
  · have hmod : (immU w).toInt % 4096 = 0 := by
      have h := toNat_immU w
      rw [BitVec.toInt_eq_toNat_cond]
      split <;> omega
    have hlt : (immU w).toInt < 2147483648 := (immU w).toInt_lt
    exact ⟨immU_eq_and w, immU_eq_sext_shiftLeft w, hmod, (immU w).le_toInt, by omega⟩
  · apply BitVec.eq_of_toNat_eq
    rw [toNat_immU, h]
    rfl

/-! What the decoder refuses (rules R77 to R79, R86 to R88). -/

theorem lowBits_eq_iff (w : Word) : extractBits w 0 1 = 0b11 ↔ w.toNat % 4 = 3 := by
  rw [BitVec.toNat_eq, toNat_extractBits, pow_zero, Nat.div_one]
  rfl

theorem opcode_eq_iff (w : Word) (o : Opcode) : extractBits w 0 6 = o.bits ↔ w.toNat % 128 = o.bits.toNat := by
  rw [BitVec.toNat_eq, toNat_extractBits, pow_zero, Nat.div_one]
  rfl

/-- The nine opcodes of rule R77 as numbers. -/
theorem exists_opcode_iff (n : Nat) :
    (∃ o : Opcode, n = o.bits.toNat) ↔ n ∈ [0x37, 0x17, 0x6F, 0x67, 0x63, 0x03, 0x23, 0x13, 0x33] := by
  have hlist : [0x37, 0x17, 0x6F, 0x67, 0x63, 0x03, 0x23, 0x13, 0x33] =
      [.lui, .auipc, .jal, .jalr, .branch, .load, .store, .opImm, .op].map fun o : Opcode => o.bits.toNat := rfl
  rw [hlist, List.mem_map]
  exact ⟨fun ⟨o, ho⟩ => ⟨o, by cases o <;> decide, ho.symm⟩, fun ⟨o, _, ho⟩ => ⟨o, ho.symm⟩⟩

/-- Every known opcode ends in `11`. -/
theorem mod_four_of_opcode {n : Nat} {o : Opcode} (h : n % 128 = o.bits.toNat) : n % 4 = 3 := by
  have h3 : o.bits.toNat % 4 = 3 := by cases o <;> decide
  omega

/-- With a known opcode the function lookup answers (rule R79, steps 3 and 4). -/
theorem decode_of_opcode {w : Word} {o : Opcode} (h : extractBits w 0 6 = o.bits) :
    decode w = (select o w).elim (.error .unknownFunction) .ok := by
  have hlow := (lowBits_eq_iff w).2 (mod_four_of_opcode ((opcode_eq_iff w o).1 h))
  unfold decode
  rw [if_neg (not_not.2 hlow), (lookupOpcode_eq_some _ o).2 h]
  cases hs : select o w <;> simp only [hs, Option.elim]

/-- The ways `decode` ends (rule R79): at the low bits, at the opcode lookup, or with the function lookup's answer. -/
theorem decode_cases (w : Word) :
    (w.toNat % 4 ≠ 3 ∧ decode w = .error .compressedClass) ∨
      (w.toNat % 4 = 3 ∧ (¬ ∃ o : Opcode, w.toNat % 128 = o.bits.toNat) ∧ decode w = .error .unknownOpcode) ∨
      ∃ o : Opcode, w.toNat % 128 = o.bits.toNat ∧ decode w = (select o w).elim (.error .unknownFunction) .ok := by
  by_cases hlow : extractBits w 0 1 = 0b11
  · rcases hl : lookupOpcode (extractBits w 0 6) with _ | o
    · have hd : decode w = .error .unknownOpcode := by
        unfold decode
        rw [if_neg (not_not.2 hlow), hl]
      simp only [lookupOpcode_eq_none, ne_eq, opcode_eq_iff] at hl
      exact .inr (.inl ⟨(lowBits_eq_iff w).1 hlow, not_exists.2 hl, hd⟩)
    · have ho := (lookupOpcode_eq_some _ o).1 hl
      exact .inr (.inr ⟨o, (opcode_eq_iff w o).1 ho, decode_of_opcode ho⟩)
  · exact .inl ⟨mt (lowBits_eq_iff w).2 hlow, if_pos hlow⟩

/-- Settles O11: each of the ways `decode` ends, against the two conditions. -/
theorem compressedAndUnknownOpcodeExactly : Obligations.CompressedAndUnknownOpcodeExactly := by
  intro w
  rw [← exists_opcode_iff]
  rcases decode_cases w with ⟨hlow, hd⟩ | ⟨hlow, ho, hd⟩ | ⟨o, ho, hd⟩
  · simp [hd, hlow]
  · simpa [hd, hlow] using ho
  · have hex : ∃ o : Opcode, w.toNat % 128 = o.bits.toNat := ⟨o, ho⟩
    cases hs : select o w <;> simp [hd, hs, hex, mod_four_of_opcode ho]

/-! Which function fields select nothing (rule R78). -/

theorem selectJalr_eq_none (r : IFmt) : selectJalr r = none ↔ r.funct3.toNat ≠ 0 := by
  unfold selectJalr
  split_ifs <;> simp only [false_iff, true_iff] <;> bv_omega

theorem selectBranch_eq_none (r : BFmt) : selectBranch r = none ↔ r.funct3.toNat = 2 ∨ r.funct3.toNat = 3 := by
  unfold selectBranch
  split_ifs <;> simp only [false_iff, true_iff] <;> bv_omega

theorem selectLoad_eq_none (r : IFmt) : selectLoad r = none ↔ r.funct3.toNat ≠ 2 := by
  unfold selectLoad
  split_ifs <;> simp only [false_iff, true_iff] <;> bv_omega

theorem selectStore_eq_none (r : SFmt) : selectStore r = none ↔ r.funct3.toNat ≠ 2 := by
  unfold selectStore
  split_ifs <;> simp only [false_iff, true_iff] <;> bv_omega

theorem selectOpImm_eq_none (r : IFmt) : selectOpImm r = none ↔
    r.funct3.toNat = 4 ∨ r.funct3.toNat = 6 ∨ r.funct3.toNat = 7 ∨ (r.funct3.toNat = 1 ∧ r.funct7.toNat ≠ 0) ∨
      (r.funct3.toNat = 5 ∧ r.funct7.toNat ≠ 0 ∧ r.funct7.toNat ≠ 32) := by
  unfold selectOpImm
  split_ifs <;> simp only [false_iff, true_iff] <;> bv_omega

theorem selectOpBase_ne_none (r : RFmt) : selectOpBase r ≠ none := by
  unfold selectOpBase
  split_ifs <;> exact Option.some_ne_none _

theorem selectOpAlt_eq_none (r : RFmt) : selectOpAlt r = none ↔ r.funct3.toNat ≠ 0 ∧ r.funct3.toNat ≠ 5 := by
  unfold selectOpAlt
  split_ifs <;> simp only [false_iff, true_iff] <;> bv_omega

theorem selectOp_eq_none (r : RFmt) : selectOp r = none ↔
    (r.funct7.toNat ≠ 0 ∧ r.funct7.toNat ≠ 32) ∨ (r.funct7.toNat = 32 ∧ r.funct3.toNat ≠ 0 ∧ r.funct3.toNat ≠ 5) := by
  unfold selectOp
  split_ifs <;> simp only [selectOpBase_ne_none, selectOpAlt_eq_none, false_iff, true_iff] <;> bv_omega

theorem toNat_funct3 (w : Word) : (extractBits w 12 14 : BitVec 3).toNat = w.toNat / 2 ^ 12 % 8 :=
  toNat_extractBits w 12 14

/-- The topmost field needs no reduction: a word has no bit above it. -/
theorem toNat_funct7 (w : Word) : (extractBits w 25 31 : BitVec 7).toNat = w.toNat / 2 ^ 25 :=
  (toNat_extractBits w 25 31).trans (Nat.mod_eq_of_lt (Nat.div_lt_of_lt_mul w.isLt))

/-- Settles O12: under each known opcode, the list of rule R88 is where its function lookup selects nothing. -/
theorem unknownFunctionExactly : Obligations.UnknownFunctionExactly := by
  intro w
  rcases decode_cases w with ⟨hlow, hd⟩ | ⟨-, ho, hd⟩ | ⟨o, ho, hd⟩
  · simp only [hd, Except.error.injEq, reduceCtorEq, false_iff]
    omega
  · simp only [exists_opcode_iff, List.mem_cons, List.not_mem_nil, or_false, not_or] at ho
    simp only [hd, Except.error.injEq, reduceCtorEq, false_iff]
    omega
  · have hn : decode w = .error .unknownFunction ↔ select o w = none := by
      rw [hd]
      cases select o w <;> simp
    rw [hn]
    cases o
    all_goals
      simp only [Opcode.bits, BitVec.reduceToNat] at ho
      simp [ho, select, selectJalr_eq_none, selectBranch_eq_none, selectLoad_eq_none, selectStore_eq_none,
        selectOpImm_eq_none, selectOp_eq_none, decodeI, decodeB, decodeS, decodeR, toNat_funct3, toNat_funct7]

/-! The decoder by rows: a word decodes exactly when it lies in a row of rule R80, and then to that row's instruction. -/

/-- The opcode of a row (rules R77, R80). -/
def Mnemonic.opcode : Mnemonic → Opcode
  | .lui => .lui
  | .auipc => .auipc
  | .jal => .jal
  | .jalr => .jalr
  | .beq | .bne | .blt | .bge | .bltu | .bgeu => .branch
  | .lw => .load
  | .sw => .store
  | .addi | .slti | .sltiu | .slli | .srli | .srai => .opImm
  | .add | .sub | .sll | .slt | .sltu | .xor | .srl | .sra | .or | .and => .op

/-- The instruction of a row with the operands that stand in `w` (rules R63 to R75). -/
def Mnemonic.instr (m : Mnemonic) (w : Word) : Instr :=
  let rd := regOf (extractBits w 7 11)
  let rs1 := regOf (extractBits w 15 19)
  let rs2 := regOf (extractBits w 20 24)
  match m with
  | .lui => .lui rd (immU w)
  | .auipc => .auipc rd (immU w)
  | .jal => .jal rd (immJ w)
  | .jalr => .jalr rd rs1 (immI w)
  | .beq => .beq rs1 rs2 (immB w)
  | .bne => .bne rs1 rs2 (immB w)
  | .blt => .blt rs1 rs2 (immB w)
  | .bge => .bge rs1 rs2 (immB w)
  | .bltu => .bltu rs1 rs2 (immB w)
  | .bgeu => .bgeu rs1 rs2 (immB w)
  | .lw => .lw rd rs1 (immI w)
  | .sw => .sw rs2 rs1 (immS w)
  | .addi => .addi rd rs1 (immI w)
  | .slti => .slti rd rs1 (immI w)
  | .sltiu => .sltiu rd rs1 (immI w)
  | .slli => .slli rd rs1 rs2
  | .srli => .srli rd rs1 rs2
  | .srai => .srai rd rs1 rs2
  | .add => .add rd rs1 rs2
  | .sub => .sub rd rs1 rs2
  | .sll => .sll rd rs1 rs2
  | .slt => .slt rd rs1 rs2
  | .sltu => .sltu rd rs1 rs2
  | .xor => .xor rd rs1 rs2
  | .srl => .srl rd rs1 rs2
  | .sra => .sra rd rs1 rs2
  | .or => .or rd rs1 rs2
  | .and => .and rd rs1 rs2

theorem mnemonic_instr (m : Mnemonic) (w : Word) : (m.instr w).mnemonic = m := by
  cases m <;> rfl

theorem instr_wf (m : Mnemonic) (w : Word) : (m.instr w).wf = true := by
  cases m
  case lui | auipc => exact decide_eq_true (immU_wf w)
  case jal => exact decide_eq_true (immJ_wf w)
  case jalr | lw | addi | slti | sltiu => exact decide_eq_true (immI_wf w)
  case beq | bne | blt | bge | bltu | bgeu => exact decide_eq_true (immB_wf w)
  case sw => exact decide_eq_true (immS_wf w)
  all_goals rfl

theorem opcode_of_row {m : Mnemonic} {w : Word} (h : w &&& m.maskBits = m.matchBits) :
    extractBits w 0 6 = m.opcode.bits := by
  rw [extractBits_of_and_eq h 0 6 (by cases m <;> decide)]
  cases m <;> rfl

/-- The function fields a row fixes select that row. -/
theorem select_of_row {m : Mnemonic} {w : Word} (h : w &&& m.maskBits = m.matchBits) :
    select m.opcode w = some (m.instr w) := by
  cases m
  case lui | auipc | jal => rfl
  case jalr | lw | sw | beq | bne | blt | bge | bltu | bgeu | addi | slti | sltiu =>
    have h3 := extractBits_of_and_eq h 12 14 (by decide)
    simp only [select, Mnemonic.opcode, selectJalr, selectBranch, selectLoad, selectStore, selectOpImm, decodeI, decodeB,
      decodeS, h3]
    rfl
  all_goals
    have h3 := extractBits_of_and_eq h 12 14 (by decide)
    have h7 := extractBits_of_and_eq h 25 31 (by decide)
    simp only [select, Mnemonic.opcode, selectOpImm, selectOp, selectOpBase, selectOpAlt, decodeI, decodeR, h3, h7]
    rfl

theorem decode_of_row {m : Mnemonic} {w : Word} (h : w &&& m.maskBits = m.matchBits) : decode w = .ok (m.instr w) := by
  rw [decode_of_opcode (opcode_of_row h), select_of_row h, Option.elim_some]

/-! Placed fields. -/

theorem getLsbD_place {n : Nat} (v : BitVec n) (pos i : Nat) :
    (place v pos).getLsbD i = (decide (i < 32) && decide (pos ≤ i) && v.getLsbD (i - pos)) := by
  rw [place, BitVec.getLsbD_shiftLeft, BitVec.getLsbD_setWidth]
  grind

/-- The mask of the field from bit `lo` to bit `hi`. -/
def fieldMask (lo hi : Nat) : Word := place (BitVec.allOnes (hi - lo + 1)) lo

/-- A field put back at its place is the word under the field's mask. -/
theorem place_extractBits (w : Word) (lo hi : Nat) : place (extractBits w lo hi) lo = w &&& fieldMask lo hi := by
  apply BitVec.eq_of_getLsbD_eq
  intro i _
  rw [BitVec.getLsbD_and, fieldMask, getLsbD_place, getLsbD_place, getLsbD_extractBits, BitVec.getLsbD_allOnes]
  grind

@[simp] theorem extractBits_place_of_disjoint {n : Nat} (v : BitVec n) {pos lo hi : Nat}
    (h : lo ≤ hi ∧ hi < pos ∨ pos + n ≤ lo) : extractBits (place v pos) lo hi = 0#_ := by
  apply BitVec.eq_of_getLsbD_eq
  intro i _
  have hv := v.getLsbD_of_ge (lo + i - pos)
  rw [getLsbD_extractBits, getLsbD_place, BitVec.getLsbD_zero]
  grind

@[simp] theorem extractBits_place_self {n : Nat} (v : BitVec n) {lo hi : Nat} (hle : lo ≤ hi) (h32 : hi < 32) :
    extractBits (place v lo) lo hi = v.setWidth (hi - lo + 1) := by
  apply BitVec.eq_of_getLsbD_eq
  intro i _
  rw [getLsbD_extractBits, getLsbD_place, BitVec.getLsbD_setWidth]
  grind

theorem regOf_ofNat (r : RegIdx) : regOf (BitVec.ofNat 5 r.val) = r := Fin.ext (Nat.mod_eq_of_lt r.isLt)

theorem placeReg_regOf (b : BitVec 5) (pos : Nat) : placeReg (regOf b) pos = place b pos :=
  congrArg (place · pos) ((BitVec.ofNat_toNat 5 b).trans b.setWidth_eq)

/-! The other direction: the fields the lookup asks for are those under the row's mask. -/

theorem and_opcodeMask {w : Word} {op : BitVec 7} (ho : extractBits w 0 6 = op) : w &&& 0x0000007F = place op 0 := by
  rw [← ho, place_extractBits]
  rfl

theorem and_funct3Mask {w : Word} {op : BitVec 7} {f3 : BitVec 3} (ho : extractBits w 0 6 = op)
    (h3 : extractBits w 12 14 = f3) : w &&& 0x0000707F = place op 0 ||| place f3 12 := by
  rw [← ho, ← h3, place_extractBits, place_extractBits, ← BitVec.and_or_distrib_left]
  rfl

theorem and_funct7Mask {w : Word} {op : BitVec 7} {f3 : BitVec 3} {f7 : BitVec 7} (ho : extractBits w 0 6 = op)
    (h3 : extractBits w 12 14 = f3) (h7 : extractBits w 25 31 = f7) :
    w &&& 0xFE00707F = place op 0 ||| place f3 12 ||| place f7 25 := by
  rw [← ho, ← h3, ← h7, place_extractBits, place_extractBits, place_extractBits, ← BitVec.and_or_distrib_left,
    ← BitVec.and_or_distrib_left]
  rfl

theorem funct3_eq_seven (f : BitVec 3) (h0 : f ≠ 0) (h1 : f ≠ 1) (h2 : f ≠ 2) (h3 : f ≠ 3) (h4 : f ≠ 4) (h5 : f ≠ 5)
    (h6 : f ≠ 6) : f = 7 := by
  bv_omega

theorem row_of_select {o : Opcode} {w : Word} {i : Instr} (ho : extractBits w 0 6 = o.bits) (h : select o w = some i) :
    w &&& i.mnemonic.maskBits = i.mnemonic.matchBits ∧ i.mnemonic.instr w = i := by
  cases o
  case lui | auipc | jal =>
    cases h
    exact ⟨(and_opcodeMask ho).trans (by rfl), rfl⟩
  case jalr | branch | load | store =>
    simp only [select, selectJalr, selectBranch, selectLoad, selectStore] at h
    split_ifs at h <;> cases h <;> exact ⟨(and_funct3Mask ho ‹_›).trans (by rfl), rfl⟩
  case opImm =>
    simp only [select, selectOpImm] at h
    split_ifs at h with haddi hslti hsltiu hslli hsrli hsrai <;> cases h
    · exact ⟨(and_funct3Mask ho haddi).trans (by rfl), rfl⟩
    · exact ⟨(and_funct3Mask ho hslti).trans (by rfl), rfl⟩
    · exact ⟨(and_funct3Mask ho hsltiu).trans (by rfl), rfl⟩
    · exact ⟨(and_funct7Mask ho hslli.1 hslli.2).trans (by rfl), rfl⟩
    · exact ⟨(and_funct7Mask ho hsrli.1 hsrli.2).trans (by rfl), rfl⟩
    · exact ⟨(and_funct7Mask ho hsrai.1 hsrai.2).trans (by rfl), rfl⟩
  case op =>
    simp only [select, selectOp] at h
    split_ifs at h with hbase halt
    · simp only [selectOpBase] at h
      split_ifs at h with h0 h1 h2 h3 h4 h5 h6 <;> cases h
      -- AND is the function left over.
      on_goal 8 => have hand := funct3_eq_seven _ h0 h1 h2 h3 h4 h5 h6
      all_goals exact ⟨(and_funct7Mask ho ‹_› hbase).trans (by rfl), rfl⟩
    · simp only [selectOpAlt] at h
      split_ifs at h <;> cases h <;> exact ⟨(and_funct7Mask ho ‹_› halt).trans (by rfl), rfl⟩

theorem row_of_decode {w : Word} {i : Instr} (h : decode w = .ok i) :
    w &&& i.mnemonic.maskBits = i.mnemonic.matchBits ∧ i.mnemonic.instr w = i := by
  obtain ⟨-, o, ho, hs⟩ := (decode_eq_ok w i).1 h
  exact row_of_select ho hs

/-! Encoding the operands of a word gives its bits outside the row's mask. -/

theorem immI_field (w : Word) : extractBits (immI w) 0 11 = extractBits w 20 31 := by
  refine extractLsb'_congr fun j hj => ?_
  grind [getLsbD_immI]

theorem immS_fields (w : Word) :
    extractBits (immS w) 0 4 = extractBits w 7 11 ∧ extractBits (immS w) 5 11 = extractBits w 25 31 := by
  refine ⟨?_, ?_⟩ <;> refine extractLsb'_congr fun j hj => ?_ <;> grind [getLsbD_immS]

theorem immB_fields (w : Word) :
    extractBits (immB w) 1 4 = extractBits w 8 11 ∧ extractBits (immB w) 5 10 = extractBits w 25 30 ∧
      extractBits (immB w) 11 11 = extractBits w 7 7 ∧ extractBits (immB w) 12 12 = extractBits w 31 31 := by
  refine ⟨?_, ?_, ?_, ?_⟩ <;> refine extractLsb'_congr fun j hj => ?_ <;> grind [getLsbD_immB]

theorem immU_field (w : Word) : extractBits (immU w) 12 31 = extractBits w 12 31 := by
  refine extractLsb'_congr fun j hj => ?_
  grind [getLsbD_immU]

theorem immJ_fields (w : Word) :
    extractBits (immJ w) 1 10 = extractBits w 21 30 ∧ extractBits (immJ w) 11 11 = extractBits w 20 20 ∧
      extractBits (immJ w) 12 19 = extractBits w 12 19 ∧ extractBits (immJ w) 20 20 = extractBits w 31 31 := by
  refine ⟨?_, ?_, ?_, ?_⟩ <;> refine extractLsb'_congr fun j hj => ?_ <;> grind [getLsbD_immJ]

theorem fieldsR_regs (w : Word) :
    fieldsR (regOf (extractBits w 7 11)) (regOf (extractBits w 15 19)) (regOf (extractBits w 20 24)) =
      w &&& ~~~0xFE00707F := by
  simp only [fieldsR, placeReg_regOf, place_extractBits, ← BitVec.and_or_distrib_left]
  rfl

theorem fieldsI_immI (w : Word) :
    fieldsI (regOf (extractBits w 7 11)) (regOf (extractBits w 15 19)) (immI w) = w &&& ~~~0x0000707F := by
  simp only [fieldsI, placeReg_regOf, place_extractBits, immI_field, ← BitVec.and_or_distrib_left]
  rfl

theorem fieldsS_immS (w : Word) :
    fieldsS (regOf (extractBits w 15 19)) (regOf (extractBits w 20 24)) (immS w) = w &&& ~~~0x0000707F := by
  obtain ⟨h0, h5⟩ := immS_fields w
  simp only [fieldsS, placeReg_regOf, place_extractBits, h0, h5, ← BitVec.and_or_distrib_left]
  rfl

theorem fieldsB_immB (w : Word) :
    fieldsB (regOf (extractBits w 15 19)) (regOf (extractBits w 20 24)) (immB w) = w &&& ~~~0x0000707F := by
  obtain ⟨h1, h5, h11, h12⟩ := immB_fields w
  simp only [fieldsB, placeReg_regOf, place_extractBits, h1, h5, h11, h12, ← BitVec.and_or_distrib_left]
  rfl

theorem fieldsU_immU (w : Word) : fieldsU (regOf (extractBits w 7 11)) (immU w) = w &&& ~~~0x0000007F := by
  simp only [fieldsU, placeReg_regOf, place_extractBits, immU_field, ← BitVec.and_or_distrib_left]
  rfl

theorem fieldsJ_immJ (w : Word) : fieldsJ (regOf (extractBits w 7 11)) (immJ w) = w &&& ~~~0x0000007F := by
  obtain ⟨h1, h11, h12, h20⟩ := immJ_fields w
  simp only [fieldsJ, placeReg_regOf, place_extractBits, h1, h11, h12, h20, ← BitVec.and_or_distrib_left]
  rfl

theorem fields_instr (m : Mnemonic) (w : Word) : (m.instr w).fields = w &&& ~~~m.maskBits := by
  cases m
  case lui | auipc => exact fieldsU_immU w
  case jal => exact fieldsJ_immJ w
  case jalr | lw | addi | slti | sltiu => exact fieldsI_immI w
  case beq | bne | blt | bge | bltu | bgeu => exact fieldsB_immB w
  case sw => exact fieldsS_immS w
  all_goals exact fieldsR_regs w

theorem encode_instr {m : Mnemonic} {w : Word} (h : w &&& m.maskBits = m.matchBits) : encode (m.instr w) = w := by
  rw [encode, mnemonic_instr, fields_instr, ← h, ← BitVec.and_or_distrib_left, BitVec.or_not_self, BitVec.and_allOnes]

/-- Settles O9: the word lies in the row of what it decodes to, and is that row's bits with its own operand fields. -/
theorem encodeOfDecodeIsIdentity : Obligations.EncodeOfDecodeIsIdentity := by
  intro w i h
  obtain ⟨hrow, hi⟩ := row_of_decode h
  have hwf := instr_wf i.mnemonic w
  have henc := encode_instr hrow
  rw [hi] at hwf henc
  exact ⟨hwf, henc⟩

/-! Reading the operands of an encoded instruction back: its fields are the placed ones, and they determine a well-formed
immediate. -/

theorem fields_and_mask (i : Instr) : i.fields &&& i.mnemonic.maskBits = 0 := by
  cases i
  case lui | auipc => exact fieldsU_and _ _
  case jal => exact fieldsJ_and _ _
  case jalr | lw | addi | slti | sltiu => exact fieldsI_and _ _ _
  case beq | bne | blt | bge | bltu | bgeu => exact fieldsB_and _ _ _
  case sw => exact fieldsS_and _ _ _
  case slli | srli | srai => exact fieldsShift_and _ _ _
  all_goals exact fieldsR_and _ _ _

theorem row_of_encode (i : Instr) : encode i &&& i.mnemonic.maskBits = i.mnemonic.matchBits :=
  or_and_of_fields _ _ _ (match_and_mask _) (fields_and_mask i)

/-- `match` and the operand fields stand on opposite sides of the mask. -/
theorem encode_and_not_mask (i : Instr) : encode i &&& ~~~i.mnemonic.maskBits = i.fields := by
  have hmatch : ∀ m : Mnemonic, m.matchBits &&& ~~~m.maskBits = 0 := by
    intro m
    cases m <;> decide
  have hfields : i.fields &&& ~~~i.mnemonic.maskBits = i.fields := by
    calc i.fields &&& ~~~i.mnemonic.maskBits
        = i.fields &&& i.mnemonic.maskBits ||| i.fields &&& ~~~i.mnemonic.maskBits := by
          rw [fields_and_mask]
          exact BitVec.zero_or.symm
      _ = i.fields := by rw [← BitVec.and_or_distrib_left, BitVec.or_not_self, BitVec.and_allOnes]
  rw [encode, BitVec.or_comm]
  exact or_and_of_fields _ _ _ hfields (hmatch _)

theorem immI_ext {a b : Word} (ha : immWf12 a) (hb : immWf12 b) (h : extractBits a 0 11 = extractBits b 0 11) :
    a = b := by
  rw [BitVec.toNat_eq] at h ⊢
  simp only [toNat_extractBits, immWf12, BitVec.toInt_eq_toNat_cond] at *
  omega

theorem immS_ext {a b : Word} (ha : immWf12 a) (hb : immWf12 b) (h0 : extractBits a 0 4 = extractBits b 0 4)
    (h5 : extractBits a 5 11 = extractBits b 5 11) : a = b := by
  rw [BitVec.toNat_eq] at h0 h5 ⊢
  simp only [toNat_extractBits, immWf12, BitVec.toInt_eq_toNat_cond] at *
  omega

theorem immB_ext {a b : Word} (ha : immWfB a) (hb : immWfB b) (h1 : extractBits a 1 4 = extractBits b 1 4)
    (h5 : extractBits a 5 10 = extractBits b 5 10) (h11 : extractBits a 11 11 = extractBits b 11 11)
    (h12 : extractBits a 12 12 = extractBits b 12 12) : a = b := by
  rw [BitVec.toNat_eq] at h1 h5 h11 h12 ⊢
  simp only [toNat_extractBits, immWfB, BitVec.toInt_eq_toNat_cond] at *
  omega

theorem immU_ext {a b : Word} (ha : immWfU a) (hb : immWfU b) (h : extractBits a 12 31 = extractBits b 12 31) :
    a = b := by
  rw [BitVec.toNat_eq] at h ⊢
  simp only [toNat_extractBits, immWfU] at *
  omega

theorem immJ_ext {a b : Word} (ha : immWfJ a) (hb : immWfJ b) (h1 : extractBits a 1 10 = extractBits b 1 10)
    (h11 : extractBits a 11 11 = extractBits b 11 11) (h12 : extractBits a 12 19 = extractBits b 12 19)
    (h20 : extractBits a 20 20 = extractBits b 20 20) : a = b := by
  rw [BitVec.toNat_eq] at h1 h11 h12 h20 ⊢
  simp only [toNat_extractBits, immWfJ, BitVec.toInt_eq_toNat_cond] at *
  omega

theorem operands_of_fieldsR {w : Word} {rd rs1 rs2 : RegIdx} (h : w &&& ~~~0xFE00707F = fieldsR rd rs1 rs2) :
    regOf (extractBits w 7 11) = rd ∧ regOf (extractBits w 15 19) = rs1 ∧ regOf (extractBits w 20 24) = rs2 := by
  have h7 : extractBits w 7 11 = BitVec.ofNat 5 rd.val :=
    (extractBits_of_and_eq h 7 11 (by decide)).trans (by simp [fieldsR, placeReg])
  have h15 : extractBits w 15 19 = BitVec.ofNat 5 rs1.val :=
    (extractBits_of_and_eq h 15 19 (by decide)).trans (by simp [fieldsR, placeReg])
  have h20 : extractBits w 20 24 = BitVec.ofNat 5 rs2.val :=
    (extractBits_of_and_eq h 20 24 (by decide)).trans (by simp [fieldsR, placeReg])
  simp only [h7, h15, h20, regOf_ofNat, and_self]

theorem operands_of_fieldsI {w : Word} {rd rs1 : RegIdx} {imm : Word} (hwf : immWf12 imm)
    (h : w &&& ~~~0x0000707F = fieldsI rd rs1 imm) :
    regOf (extractBits w 7 11) = rd ∧ regOf (extractBits w 15 19) = rs1 ∧ immI w = imm := by
  have h7 : extractBits w 7 11 = BitVec.ofNat 5 rd.val :=
    (extractBits_of_and_eq h 7 11 (by decide)).trans (by simp [fieldsI, placeReg])
  have h15 : extractBits w 15 19 = BitVec.ofNat 5 rs1.val :=
    (extractBits_of_and_eq h 15 19 (by decide)).trans (by simp [fieldsI, placeReg])
  have h20 : extractBits w 20 31 = extractBits imm 0 11 :=
    (extractBits_of_and_eq h 20 31 (by decide)).trans (by simp [fieldsI, placeReg])
  have himm := immI_ext (immI_wf w) hwf ((immI_field w).trans h20)
  simp only [h7, h15, himm, regOf_ofNat, and_self]

theorem operands_of_fieldsS {w : Word} {rs1 rs2 : RegIdx} {imm : Word} (hwf : immWf12 imm)
    (h : w &&& ~~~0x0000707F = fieldsS rs1 rs2 imm) :
    regOf (extractBits w 15 19) = rs1 ∧ regOf (extractBits w 20 24) = rs2 ∧ immS w = imm := by
  have h15 : extractBits w 15 19 = BitVec.ofNat 5 rs1.val :=
    (extractBits_of_and_eq h 15 19 (by decide)).trans (by simp [fieldsS, placeReg])
  have h20 : extractBits w 20 24 = BitVec.ofNat 5 rs2.val :=
    (extractBits_of_and_eq h 20 24 (by decide)).trans (by simp [fieldsS, placeReg])
  have h7 : extractBits w 7 11 = extractBits imm 0 4 :=
    (extractBits_of_and_eq h 7 11 (by decide)).trans (by simp [fieldsS, placeReg])
  have h25 : extractBits w 25 31 = extractBits imm 5 11 :=
    (extractBits_of_and_eq h 25 31 (by decide)).trans (by simp [fieldsS, placeReg])
  obtain ⟨i0, i5⟩ := immS_fields w
  have himm := immS_ext (immS_wf w) hwf (i0.trans h7) (i5.trans h25)
  simp only [h15, h20, himm, regOf_ofNat, and_self]

theorem operands_of_fieldsB {w : Word} {rs1 rs2 : RegIdx} {imm : Word} (hwf : immWfB imm)
    (h : w &&& ~~~0x0000707F = fieldsB rs1 rs2 imm) :
    regOf (extractBits w 15 19) = rs1 ∧ regOf (extractBits w 20 24) = rs2 ∧ immB w = imm := by
  have h15 : extractBits w 15 19 = BitVec.ofNat 5 rs1.val :=
    (extractBits_of_and_eq h 15 19 (by decide)).trans (by simp [fieldsB, placeReg])
  have h20 : extractBits w 20 24 = BitVec.ofNat 5 rs2.val :=
    (extractBits_of_and_eq h 20 24 (by decide)).trans (by simp [fieldsB, placeReg])
  have h7 : extractBits w 7 7 = extractBits imm 11 11 :=
    (extractBits_of_and_eq h 7 7 (by decide)).trans (by simp [fieldsB, placeReg])
  have h8 : extractBits w 8 11 = extractBits imm 1 4 :=
    (extractBits_of_and_eq h 8 11 (by decide)).trans (by simp [fieldsB, placeReg])
  have h25 : extractBits w 25 30 = extractBits imm 5 10 :=
    (extractBits_of_and_eq h 25 30 (by decide)).trans (by simp [fieldsB, placeReg])
  have h31 : extractBits w 31 31 = extractBits imm 12 12 :=
    (extractBits_of_and_eq h 31 31 (by decide)).trans (by simp [fieldsB, placeReg])
  obtain ⟨i1, i5, i11, i12⟩ := immB_fields w
  have himm := immB_ext (immB_wf w) hwf (i1.trans h8) (i5.trans h25) (i11.trans h7) (i12.trans h31)
  simp only [h15, h20, himm, regOf_ofNat, and_self]

theorem operands_of_fieldsU {w : Word} {rd : RegIdx} {imm : Word} (hwf : immWfU imm)
    (h : w &&& ~~~0x0000007F = fieldsU rd imm) : regOf (extractBits w 7 11) = rd ∧ immU w = imm := by
  have h7 : extractBits w 7 11 = BitVec.ofNat 5 rd.val :=
    (extractBits_of_and_eq h 7 11 (by decide)).trans (by simp [fieldsU, placeReg])
  have h12 : extractBits w 12 31 = extractBits imm 12 31 :=
    (extractBits_of_and_eq h 12 31 (by decide)).trans (by simp [fieldsU, placeReg])
  have himm := immU_ext (immU_wf w) hwf ((immU_field w).trans h12)
  simp only [h7, himm, regOf_ofNat, and_self]

theorem operands_of_fieldsJ {w : Word} {rd : RegIdx} {imm : Word} (hwf : immWfJ imm)
    (h : w &&& ~~~0x0000007F = fieldsJ rd imm) : regOf (extractBits w 7 11) = rd ∧ immJ w = imm := by
  have h7 : extractBits w 7 11 = BitVec.ofNat 5 rd.val :=
    (extractBits_of_and_eq h 7 11 (by decide)).trans (by simp [fieldsJ, placeReg])
  have h12 : extractBits w 12 19 = extractBits imm 12 19 :=
    (extractBits_of_and_eq h 12 19 (by decide)).trans (by simp [fieldsJ, placeReg])
  have h20 : extractBits w 20 20 = extractBits imm 11 11 :=
    (extractBits_of_and_eq h 20 20 (by decide)).trans (by simp [fieldsJ, placeReg])
  have h21 : extractBits w 21 30 = extractBits imm 1 10 :=
    (extractBits_of_and_eq h 21 30 (by decide)).trans (by simp [fieldsJ, placeReg])
  have h31 : extractBits w 31 31 = extractBits imm 20 20 :=
    (extractBits_of_and_eq h 31 31 (by decide)).trans (by simp [fieldsJ, placeReg])
  obtain ⟨i1, i11, i12, i20⟩ := immJ_fields w
  have himm := immJ_ext (immJ_wf w) hwf (i1.trans h21) (i11.trans h20) (i12.trans h12) (i20.trans h31)
  simp only [h7, himm, regOf_ofNat, and_self]

theorem instr_encode {i : Instr} (h : i.wf = true) : i.mnemonic.instr (encode i) = i := by
  have hf := encode_and_not_mask i
  cases i
  case lui | auipc =>
    obtain ⟨hrd, himm⟩ := operands_of_fieldsU (of_decide_eq_true h) hf
    simp only [Instr.mnemonic, Mnemonic.instr, hrd, himm]
  case jal =>
    obtain ⟨hrd, himm⟩ := operands_of_fieldsJ (of_decide_eq_true h) hf
    simp only [Instr.mnemonic, Mnemonic.instr, hrd, himm]
  case jalr | lw | addi | slti | sltiu =>
    obtain ⟨hrd, hrs1, himm⟩ := operands_of_fieldsI (of_decide_eq_true h) hf
    simp only [Instr.mnemonic, Mnemonic.instr, hrd, hrs1, himm]
  case beq | bne | blt | bge | bltu | bgeu =>
    obtain ⟨hrs1, hrs2, himm⟩ := operands_of_fieldsB (of_decide_eq_true h) hf
    simp only [Instr.mnemonic, Mnemonic.instr, hrs1, hrs2, himm]
  case sw =>
    obtain ⟨hrs1, hrs2, himm⟩ := operands_of_fieldsS (of_decide_eq_true h) hf
    simp only [Instr.mnemonic, Mnemonic.instr, hrs1, hrs2, himm]
  all_goals
    obtain ⟨hrd, hrs1, hrs2⟩ := operands_of_fieldsR hf
    simp only [Instr.mnemonic, Mnemonic.instr, hrd, hrs1, hrs2]

/-- Settles O8: an encoded instruction lies in its row, and its operands read back. -/
theorem decodeOfEncodeIsIdentity : Obligations.DecodeOfEncodeIsIdentity := by
  intro i h
  rw [decode_of_row (row_of_encode i), instr_encode h]

/-! The canonical NOP (rule R84). -/

/-- Settles O40: it writes back what register 0 reads, which changes nothing under either policy. -/
theorem nopOnlyAdvancesPc : Obligations.NopOnlyAdvancesPc := by
  intro s
  calc Machine.exec (.addi 0 0 0) s
      = .next ((s.writeReg 0 (s.readReg 0 + 0)).setPc (s.pc + 4)) := rfl
    _ = .next (s.setPc (s.pc + 4)) := by rw [add_zero, Machine.writeReg_readReg]

end Sys2Proof

/-! Proofs of the family `40_alu_imm.md`: the register-immediate instructions, their words and their results. The
statements are those of Obligations.lean. -/

namespace Sys2Proof.Machine

/-! The words of a row, with the operands as the fields of rule R17. -/

theorem regOf_rdField (w : Word) : regOf (extractBits w 7 11) = rdField w := Fin.ext (toNat_extractBits w 7 11)

theorem regOf_rs1Field (w : Word) : regOf (extractBits w 15 19) = rs1Field w := Fin.ext (toNat_extractBits w 15 19)

theorem regOf_shamtField (w : Word) : regOf (extractBits w 20 24) = shamtField w := Fin.ext (toNat_extractBits w 20 24)

/-- A row of rule R80, its instruction written as `f` reads it from the word. -/
theorem decodesRow_of_instr (m : Mnemonic) {f : Word → Instr} (hf : ∀ w, m.instr w = f w) :
    DecodesRow m.maskBits m.matchBits f :=
  fun w h => (decode_of_row h).trans (congrArg Except.ok (hf w))

/-! How these instructions end, and their values as numbers (rules R10, R12, R100). -/

/-- An instruction that ends in `writeAndAdvance` completes with the value it writes and the frame of that write. -/
theorem exec_completes_with {P : Word → Prop} {i : Instr} {rd : RegIdx} {v : Word} {s : State}
    (he : exec i s = writeAndAdvance rd v s) (hv : P v) :
    ∃ t x, exec i s = .next t ∧ P x ∧ WroteReg s t rd x (s.pc + 4) := by
  obtain ⟨t, ht, hw⟩ := writeAndAdvance_spec rd v s
  exact ⟨t, v, he.trans ht, hv, hw⟩

theorem toNat_boolWord (p : Prop) [Decidable p] : (boolWord (decide p)).toNat = if p then 1 else 0 := by
  by_cases hp : p
  · rw [if_pos hp, decide_eq_true hp]; rfl
  · rw [if_neg hp, decide_eq_false hp]; rfl

theorem toNat_shiftLeft (v : Word) (n : Nat) : (shiftLeft v n).toNat = v.toNat * 2 ^ n % 2 ^ 32 := by
  rw [shiftLeft, BitVec.toNat_shiftLeft, Nat.shiftLeft_eq]

theorem toNat_shiftRightLogical (v : Word) (n : Nat) : (shiftRightLogical v n).toNat = v.toNat / 2 ^ n := by
  rw [shiftRightLogical, BitVec.toNat_ushiftRight, Nat.shiftRight_eq_div_pow]

/-- The arithmetic shift divides the signed reading, rounding toward minus infinity (rule R106). -/
theorem toInt_shiftRightArith (v : Word) (n : Nat) : (shiftRightArith v n).toInt = v.toInt / 2 ^ n := by
  rw [shiftRightArith, BitVec.toInt_sshiftRight, Int.shiftRight_eq_div_pow, Nat.cast_pow, Nat.cast_ofNat]

/-! ADDI, SLTI and SLTIU. -/

/-- Settles O22: the row of ADDI, and the sum of two words as numbers. -/
theorem addiResult : Obligations.AddiResult := by
  refine ⟨decodesRow_of_instr .addi fun w => ?_, fun rd rs1 imm s => ?_⟩
  · rw [Mnemonic.instr, regOf_rdField, regOf_rs1Field]
  · exact exec_completes_with rfl (BitVec.toNat_add _ _)

/-- Settles O23: the row of SLTI, and the comparison of the signed readings as a word. -/
theorem sltiResult : Obligations.SltiResult := by
  refine ⟨decodesRow_of_instr .slti fun w => ?_, fun rd rs1 imm s => ?_⟩
  · rw [Mnemonic.instr, regOf_rdField, regOf_rs1Field]
  · exact exec_completes_with rfl (toNat_boolWord _)

/-- Settles O24: the row of SLTIU, and the comparison of the unsigned readings as a word. -/
theorem sltiuResult : Obligations.SltiuResult := by
  refine ⟨decodesRow_of_instr .sltiu fun w => ?_, fun rd rs1 imm s => ?_⟩
  · rw [Mnemonic.instr, regOf_rdField, regOf_rs1Field]
  · exact exec_completes_with rfl (toNat_boolWord _)

/-! SLLI, SRLI and SRAI. -/

/-- The opcode and `funct3` as numbers, read from the bits under their mask (rules R17, R60). -/
theorem opcode_funct3_of_mask {w b : Word} (h : w &&& 0x0000707F = b) :
    w.toNat % 128 = b.toNat % 128 ∧ w.toNat / 2 ^ 12 % 8 = b.toNat / 2 ^ 12 % 8 := by
  have hop := congrArg BitVec.toNat (extractBits_of_and_eq h 0 6 (by decide))
  have h3 := congrArg BitVec.toNat (extractBits_of_and_eq h 12 14 (by decide))
  simp only [toNat_extractBits, pow_zero, Nat.div_one] at hop h3
  exact ⟨hop, h3⟩

/-- A shift word of OP-IMM whose `funct7` names no shift is refused (rule R88). -/
theorem decode_opImm_shift_refused {w : Word} (hop : w.toNat % 128 = 0x13)
    (hf : (w.toNat / 2 ^ 12 % 8 = 1 ∧ w.toNat / 2 ^ 25 ≠ 0) ∨
      (w.toNat / 2 ^ 12 % 8 = 5 ∧ w.toNat / 2 ^ 25 ≠ 0 ∧ w.toNat / 2 ^ 25 ≠ 32)) :
    decode w = .error .unknownFunction :=
  (unknownFunctionExactly w).2 (.inr (.inr (.inr (.inr (.inl ⟨hop, .inr (.inr (.inr hf))⟩)))))

/-- Settles O25: the three rows, R88's list for the other words, and each shift as a product or quotient. -/
theorem shiftImmediateResult : Obligations.ShiftImmediateResult := by
  refine ⟨decodesRow_of_instr .slli fun w => ?_, decodesRow_of_instr .srli fun w => ?_,
    decodesRow_of_instr .srai fun w => ?_, fun w h h7 => ?_, fun w h h0 h32 => ?_, fun rd rs1 n s => ⟨?_, ?_, ?_⟩⟩
  · rw [Mnemonic.instr, regOf_rdField, regOf_rs1Field, regOf_shamtField]
  · rw [Mnemonic.instr, regOf_rdField, regOf_rs1Field, regOf_shamtField]
  · rw [Mnemonic.instr, regOf_rdField, regOf_rs1Field, regOf_shamtField]
  · obtain ⟨hop, h3⟩ := opcode_funct3_of_mask h
    exact decode_opImm_shift_refused hop (.inl ⟨h3, h7⟩)
  · obtain ⟨hop, h3⟩ := opcode_funct3_of_mask h
    exact decode_opImm_shift_refused hop (.inr ⟨h3, h0, h32⟩)
  · exact exec_completes_with rfl (toNat_shiftLeft _ _)
  · exact exec_completes_with rfl (toNat_shiftRightLogical _ _)
  · exact exec_completes_with rfl (toInt_shiftRightArith _ _)

end Sys2Proof.Machine

/-! Proofs of the family `41_alu_reg.md`: the register-register instructions, their words and their results. The
statements are those of Obligations.lean. -/

namespace Sys2Proof.Machine

theorem regOf_rs2Field (w : Word) : regOf (extractBits w 20 24) = rs2Field w := Fin.ext (toNat_extractBits w 20 24)

/-- A row of the R format (rule R63): the instruction `g` with the three register fields of the word. -/
theorem decodesRow_of_regs (m : Mnemonic) {g : RegIdx → RegIdx → RegIdx → Instr}
    (hg : ∀ w, m.instr w =
      g (regOf (extractBits w 7 11)) (regOf (extractBits w 15 19)) (regOf (extractBits w 20 24))) :
    DecodesRow m.maskBits m.matchBits (fun w => g (rdField w) (rs1Field w) (rs2Field w)) :=
  decodesRow_of_instr m fun w => by rw [hg, regOf_rdField, regOf_rs1Field, regOf_rs2Field]

/-! Values as numbers (rules R10, R75). -/

/-- The difference of two words, over the integers: a negative one wraps (rule R112). -/
theorem toNat_sub_eq_emod (a b : Word) : ((a - b).toNat : Int) = ((a.toNat : Int) - b.toNat) % 2 ^ 32 := by
  have hb := b.isLt
  rw [BitVec.toNat_sub]
  omega

theorem regShamt_eq_mod (rs2 : RegIdx) (s : State) : regShamt rs2 s = (s.readReg rs2).toNat % 32 := by
  rw [regShamt, toNat_extractBits, pow_zero, Nat.div_one]
  rfl

/-! ADD and SUB, SLT and SLTU, XOR, OR and AND. -/

/-- Settles O26: the two rows, and the sum and the difference of two words as numbers. -/
theorem addSubResult : Obligations.AddSubResult :=
  ⟨decodesRow_of_regs .add fun _ => rfl, decodesRow_of_regs .sub fun _ => rfl, fun _ _ _ _ =>
    ⟨exec_completes_with rfl (BitVec.toNat_add _ _), exec_completes_with rfl (toNat_sub_eq_emod _ _)⟩⟩

/-- Settles O27: the two rows, and the comparisons of the signed and of the unsigned readings as words. -/
theorem sltSltuResult : Obligations.SltSltuResult :=
  ⟨decodesRow_of_regs .slt fun _ => rfl, decodesRow_of_regs .sltu fun _ => rfl, fun _ _ _ _ =>
    ⟨exec_completes_with rfl (toNat_boolWord _), exec_completes_with rfl (toNat_boolWord _)⟩⟩

/-- Settles O28: the three rows, and each bit of the results. -/
theorem xorOrAndResult : Obligations.XorOrAndResult :=
  ⟨decodesRow_of_regs .xor fun _ => rfl, decodesRow_of_regs .or fun _ => rfl, decodesRow_of_regs .and fun _ => rfl,
    fun _ _ _ _ => ⟨exec_completes_with rfl fun _ _ => BitVec.getLsbD_xor,
      exec_completes_with rfl fun _ _ => BitVec.getLsbD_or, exec_completes_with rfl fun _ _ => BitVec.getLsbD_and⟩⟩

/-! SLL, SRL and SRA. -/

/-- Settles O29: the three rows, and each shift as a product or quotient, its amount the second source modulo 32. -/
theorem shiftRegisterResult : Obligations.ShiftRegisterResult := by
  refine ⟨decodesRow_of_regs .sll fun _ => rfl, decodesRow_of_regs .srl fun _ => rfl,
    decodesRow_of_regs .sra fun _ => rfl, fun rd rs1 rs2 s => ?_⟩
  rw [← regShamt_eq_mod]
  exact ⟨exec_completes_with rfl (toNat_shiftLeft _ _), exec_completes_with rfl (toNat_shiftRightLogical _ _),
    exec_completes_with rfl (toInt_shiftRightArith _ _)⟩

end Sys2Proof.Machine

/-! Proofs of the family `42_upper_imm.md`: the upper-immediate instructions, their words and their results. The
statements are those of Obligations.lean. -/

namespace Sys2Proof.Machine

/-- A row of the U format (rule R67): the instruction `g` with the register field of the word and its high 20 bits. -/
theorem decodesRow_of_upper (m : Mnemonic) {g : RegIdx → Word → Instr}
    (hg : ∀ w, m.instr w = g (regOf (extractBits w 7 11)) (immU w)) :
    DecodesRow m.maskBits m.matchBits (fun w => g (rdField w) (w &&& 0xFFFFF000)) :=
  decodesRow_of_instr m fun w => by rw [hg, regOf_rdField, immU_eq_and]

/-- A pc-relative address is the sum with the pc before the instruction, modulo 2^32 (rules R10, R27). -/
theorem toNat_pcRelative (imm : Word) (s : State) :
    (pcRelative imm s).toNat = (s.pc.toNat + imm.toNat) % 2 ^ 32 :=
  BitVec.toNat_add s.pc imm

/-- Settles O30: the row of LUI, and the write of its immediate. -/
theorem luiResult : Obligations.LuiResult :=
  ⟨decodesRow_of_upper .lui fun _ => rfl, writeAndAdvance_spec⟩

/-- Settles O31: the row of AUIPC, and the sum of its immediate and the pc before it. -/
theorem auipcResult : Obligations.AuipcResult :=
  ⟨decodesRow_of_upper .auipc fun _ => rfl, fun _ imm s => exec_completes_with rfl (toNat_pcRelative imm s)⟩

end Sys2Proof.Machine

/-! Proofs of the family `43_jumps.md`: JAL and JALR, their words and their results. The statements are those of
Obligations.lean. -/

namespace Sys2Proof.Machine

/-- An instruction that ends in `writeAndGo` with the next address as its value completes with that link, at its target,
and with the frame of that write (rules R130 to R132). -/
theorem exec_links_and_goes {P : Word → Prop} {i : Instr} {rd : RegIdx} {target : Word} {s : State}
    (he : exec i s = writeAndGo rd s.nextPc target s) (ht : P target) :
    ∃ t link x, exec i s = .next t ∧ link.toNat = (s.pc.toNat + 4) % 2 ^ 32 ∧ P x ∧ WroteReg s t rd link x := by
  obtain ⟨t, hnext, hw⟩ := writeAndGo_spec rd s.nextPc target s
  exact ⟨t, s.nextPc, target, he.trans hnext, BitVec.toNat_add s.pc instrWidth, ht, hw⟩

/-- The mask of rule R131 clears bit 0 and keeps every other bit. -/
theorem and_fffffffe_eq_shift (a : Word) : a &&& 0xFFFFFFFE#32 = (a >>> 1) <<< 1 := by
  have hmask : ∀ i < 32, (0xFFFFFFFE#32).getLsbD i = decide (1 ≤ i) := by decide
  apply BitVec.eq_of_getLsbD_eq
  intro i hi
  rw [BitVec.getLsbD_and, hmask i hi, BitVec.getLsbD_shiftLeft, BitVec.getLsbD_ushiftRight]
  cases i with
  | zero => simp
  | succ n => simp [hi, Nat.add_comm]

theorem toNat_and_fffffffe (a : Word) : (a &&& 0xFFFFFFFE#32).toNat = a.toNat / 2 * 2 := by
  have ha := a.isLt
  rw [and_fffffffe_eq_shift, BitVec.toNat_shiftLeft, BitVec.toNat_ushiftRight, Nat.shiftRight_eq_div_pow,
    Nat.shiftLeft_eq, pow_one]
  omega

theorem toNat_jalrTarget (rs1 : RegIdx) (imm : Word) (s : State) :
    (jalrTarget rs1 imm s).toNat = ((s.readReg rs1).toNat + imm.toNat) % 2 ^ 32 / 2 * 2 := by
  rw [jalrTarget, toNat_and_fffffffe, BitVec.toNat_add]

/-- A word of JALR's opcode with another `funct3` is refused (rule R88). -/
theorem decode_jalr_refused {w : Word} (hop : w &&& 0x0000007F = 0x00000067) (h3 : w.toNat / 2 ^ 12 % 8 ≠ 0) :
    decode w = .error .unknownFunction :=
  (unknownFunctionExactly w).2 (.inl ⟨(opcode_eq_iff w .jalr).1 (extractBits_of_and_eq hop 0 6 (by decide)), h3⟩)

/-- Settles O32: the row of JAL, and the link and the target as sums with the pc before it. -/
theorem jalResult : Obligations.JalResult := by
  refine ⟨decodesRow_of_instr .jal fun w => ?_, fun rd imm s => ?_⟩
  · rw [Mnemonic.instr, regOf_rdField]
  · exact exec_links_and_goes rfl (toNat_pcRelative imm s)

/-- Settles O33: the row of JALR, R88's list for the other words, and the target as an even number. -/
theorem jalrResult : Obligations.JalrResult := by
  refine ⟨decodesRow_of_instr .jalr fun w => ?_, fun w => decode_jalr_refused, fun rd rs1 imm s => ?_⟩
  · rw [Mnemonic.instr, regOf_rdField, regOf_rs1Field]
  · exact exec_links_and_goes rfl (toNat_jalrTarget rs1 imm s)

end Sys2Proof.Machine

/-! Proofs of the family `44_branches.md`: the conditional branches, their words and their results. The statements are
those of Obligations.lean. -/

namespace Sys2Proof.Machine

/-- A row of the B format (rule R66): the instruction `g` with the two source fields of the word and its immediate. -/
theorem decodesRow_of_branch (m : Mnemonic) {g : RegIdx → RegIdx → Word → Instr}
    (hg : ∀ w, m.instr w = g (regOf (extractBits w 15 19)) (regOf (extractBits w 20 24)) (immB w)) :
    DecodesRow m.maskBits m.matchBits (fun w => g (rs1Field w) (rs2Field w) (immB w)) :=
  decodesRow_of_instr m fun w => by rw [hg, regOf_rs1Field, regOf_rs2Field]

/-- An instruction that ends in `branchTo` completes, at its target exactly when `p` holds, and with the frame of that
write of the pc (rule R135). -/
theorem exec_branches_on {p : Prop} [Decidable p] {i : Instr} {taken : Bool} {imm : Word} {s : State}
    (he : exec i s = branchTo taken (pcRelative imm s) s) (hp : taken = true ↔ p) :
    ∃ t, exec i s = .next t ∧ WentTo s t (if p then s.pc + imm else s.pc + 4) := by
  obtain ⟨t, hnext, hw⟩ := branchTo_spec taken (pcRelative imm s) s
  simp only [hp] at hw
  exact ⟨t, he.trans hnext, hw⟩

/-! The conditions as propositions (rules R136 to R141). -/

theorem condEq_iff (a b : Word) : condEq a b = true ↔ a = b := decide_eq_true_iff

theorem condNe_iff (a b : Word) : condNe a b = true ↔ a ≠ b := by
  rw [condNe, Bool.not_eq_true', ← Bool.not_eq_true, condEq_iff]

theorem condLt_iff (a b : Word) : condLt a b = true ↔ a.toInt < b.toInt := decide_eq_true_iff

theorem condGe_iff (a b : Word) : condGe a b = true ↔ a.toInt ≥ b.toInt := decide_eq_true_iff

theorem condLtu_iff (a b : Word) : condLtu a b = true ↔ a.toNat < b.toNat := decide_eq_true_iff

theorem condGeu_iff (a b : Word) : condGeu a b = true ↔ a.toNat ≥ b.toNat := decide_eq_true_iff

/-! The three pairs of branches. -/

/-- Settles O34: the two rows, and the branch on equality and on its negation. -/
theorem beqBneResult : Obligations.BeqBneResult :=
  ⟨decodesRow_of_branch .beq fun _ => rfl, decodesRow_of_branch .bne fun _ => rfl, fun _ _ _ _ =>
    ⟨exec_branches_on rfl (condEq_iff _ _), exec_branches_on rfl (condNe_iff _ _)⟩⟩

/-- Settles O35: the two rows, and the branch on the comparison of the signed readings. -/
theorem bltBgeResult : Obligations.BltBgeResult :=
  ⟨decodesRow_of_branch .blt fun _ => rfl, decodesRow_of_branch .bge fun _ => rfl, fun _ _ _ _ =>
    ⟨exec_branches_on rfl (condLt_iff _ _), exec_branches_on rfl (condGe_iff _ _)⟩⟩

/-- Settles O36: the two rows, and the branch on the comparison of the unsigned readings. -/
theorem bltuBgeuResult : Obligations.BltuBgeuResult :=
  ⟨decodesRow_of_branch .bltu fun _ => rfl, decodesRow_of_branch .bgeu fun _ => rfl, fun _ _ _ _ =>
    ⟨exec_branches_on rfl (condLtu_iff _ _), exec_branches_on rfl (condGeu_iff _ _)⟩⟩

end Sys2Proof.Machine

/-! Proofs of the family `45_load_store.md`: LW and SW, their words, their results and what they say of each other. The
statements are those of Obligations.lean. -/

namespace Sys2Proof.Machine

/-! LW and SW in bounds. -/

/-- LW in bounds completes with the word at the effective address and the frame of a register write (rule R146). -/
theorem exec_lw_inBounds (rd rs1 : RegIdx) {imm : Word} {s : State} (hb : inBounds s (effAddr rs1 imm s)) :
    ∃ t, exec (.lw rd rs1 imm) s = .next t ∧
      WroteReg s t rd (s.mem.readWord (effAddr rs1 imm s).toNat) (s.pc + 4) := by
  obtain ⟨t, hnext, hw⟩ := writeAndAdvance_spec rd (s.mem.readWord (effAddr rs1 imm s).toNat) s
  exact ⟨t, (execLw_inBounds rd rs1 imm s hb).trans hnext, hw⟩

/-- Moving the pc of the state after a store keeps the store. -/
theorem storedWord_setPc {s t : State} {a : Nat} {v p : Word} (h : StoredWord s t a v p) (q : Word) :
    StoredWord s (t.setPc q) a v q := by
  obtain ⟨hbytes, hrest, hregs, -, hharness⟩ := h
  exact ⟨hbytes, hrest, hregs, rfl, hharness⟩

/-- SW in bounds completes with the register stored at the effective address (rule R147). -/
theorem exec_sw_inBounds (rs2 rs1 : RegIdx) {imm : Word} {s : State} (hwf : s.mem.wf)
    (hb : inBounds s (effAddr rs1 imm s)) :
    ∃ t, exec (.sw rs2 rs1 imm) s = .next t ∧
      StoredWord s t (effAddr rs1 imm s).toNat (s.readReg rs2) (s.pc + 4) :=
  ⟨_, execSw_inBounds rs2 rs1 imm s hb, storedWord_setPc (storedWord_writeWord s _ _ hwf) _⟩

/-- Settles O37: the row of LW, the word read as the sum of its four bytes, and the error outside the Memory. -/
theorem lwResult : Obligations.LwResult := by
  refine ⟨decodesRow_of_instr .lw fun w => ?_, fun rd rs1 imm s => ⟨BitVec.toNat_add _ _, fun hb => ?_, fun hout => ?_⟩⟩
  · rw [Mnemonic.instr, regOf_rdField, regOf_rs1Field]
  · obtain ⟨t, hnext, hw⟩ := exec_lw_inBounds rd rs1 hb
    exact ⟨t, _, hnext, toNat_readWord s.mem _, hw⟩
  · have hf := execLw_outOfBounds rd rs1 imm s (Nat.not_le_of_gt hout)
    exact ⟨hf, stopsFaulted_of_exec (i := .lw rd rs1 imm) hf⟩

/-- Settles O38: the row of SW, the four bytes stored with their frame, and the error outside the Memory. -/
theorem swResult : Obligations.SwResult := by
  refine ⟨decodesRow_of_instr .sw fun w => ?_,
    fun rs2 rs1 imm s => ⟨BitVec.toNat_add _ _, exec_sw_inBounds rs2 rs1, fun hout => ?_⟩⟩
  · rw [Mnemonic.instr, regOf_rs2Field, regOf_rs1Field]
  · have hf := execSw_outOfBounds rs2 rs1 imm s (Nat.not_le_of_gt hout)
    exact ⟨hf, stopsFaulted_of_exec (i := .sw rs2 rs1 imm) hf⟩

/-! The offsets of stores and loads (rule R148). -/

/-- The I assembler gives back the offset of an encoded LW. -/
theorem immI_encode_lw (rd rs1 : RegIdx) {k : Word} (hk : immWf12 k) : immI (encode (.lw rd rs1 k)) = k := by
  obtain ⟨-, -, himm⟩ := Instr.lw.inj (instr_encode (i := .lw rd rs1 k) (decide_eq_true hk))
  exact himm

/-- The S assembler gives back the offset of an encoded SW. -/
theorem immS_encode_sw (rs2 rs1 : RegIdx) {k : Word} (hk : immWf12 k) : immS (encode (.sw rs2 rs1 k)) = k := by
  obtain ⟨-, -, himm⟩ := Instr.sw.inj (instr_encode (i := .sw rs2 rs1 k) (decide_eq_true hk))
  exact himm

/-- The word read where a word was stored: its four bytes are those of the stored one. -/
theorem readWord_of_storedWord {s t : State} {a : Nat} {v p : Word} (h : StoredWord s t a v p) :
    t.mem.readWord a = v := by
  obtain ⟨hbytes, -⟩ := h
  have h0 := hbytes 0 (by decide)
  have h1 := hbytes 1 (by decide)
  have h2 := hbytes 2 (by decide)
  have h3 := hbytes 3 (by decide)
  have hv := v.isLt
  apply BitVec.eq_of_toNat_eq
  rw [toNat_readWord]
  simp only [add_zero] at h0
  omega

theorem effAddr_of_sameRegs {s t : State} (h : SameRegs s t) (rs1 : RegIdx) (imm : Word) :
    effAddr rs1 imm t = effAddr rs1 imm s :=
  congrArg (· + imm) (h rs1)

/-- LW with the base and offset of a store just made: the store changes no register and not `MEM_SIZE`, so the load goes
to the same address, in bounds, and its register gets the stored word. -/
theorem exec_lw_of_storedWord (rd : RegIdx) {rs1 : RegIdx} {k v p : Word} {s t : State}
    (hb : inBounds s (effAddr rs1 k s)) (hst : StoredWord s t (effAddr rs1 k s).toNat v p) :
    ∃ u, exec (.lw rd rs1 k) t = .next u ∧ RegWritten t u rd v := by
  have ⟨_, _, hregs, _, hcfg, _⟩ := hst
  have haddr := effAddr_of_sameRegs hregs rs1 k
  have hbt : inBounds t (effAddr rs1 k t) := by rwa [inBounds, haddr, hcfg]
  obtain ⟨u, hload, hwritten, -⟩ := exec_lw_inBounds rd rs1 hbt
  rw [haddr, readWord_of_storedWord hst] at hwritten
  exact ⟨u, hload, hwritten⟩

/-- Settles O39: the offset read back from either word, and the stored value loaded again. -/
theorem storeAndLoadOffsetsAgree : Obligations.StoreAndLoadOffsetsAgree := by
  refine fun rd rs1 rs2 k hk => ⟨immI_encode_lw rd rs1 hk, immS_encode_sw rs2 rs1 hk, fun s hwf hb => ?_⟩
  obtain ⟨t, hstore, hst⟩ := exec_sw_inBounds rs2 rs1 hwf hb
  obtain ⟨u, hload, hwritten⟩ := exec_lw_of_storedWord rd hb hst
  exact ⟨t, u, hstore, hload, hwritten⟩

end Sys2Proof.Machine

/-! Proofs of the family `46_system_unimplemented.md`: the words that decode and the words that are refused. The statements
are those of Obligations.lean. -/

namespace Sys2Proof.Machine

/-! A word lies in at most one row of rule R80. -/

theorem row_unique {m n : Mnemonic} {w : Word} (hm : w &&& m.maskBits = m.matchBits)
    (hn : w &&& n.maskBits = n.matchBits) : m = n := by
  have hinstr : m.instr w = n.instr w := Except.ok.inj ((decode_of_row hm).symm.trans (decode_of_row hn))
  calc m = (m.instr w).mnemonic := (mnemonic_instr m w).symm
    _ = (n.instr w).mnemonic := congrArg Instr.mnemonic hinstr
    _ = n := mnemonic_instr n w

theorem decode_refused_of_no_row {w : Word} (h : ∀ m : Mnemonic, w &&& m.maskBits ≠ m.matchBits) :
    ∃ r, decode w = .error r := by
  cases hd : decode w with
  | error r => exact ⟨r, rfl⟩
  | ok i => exact absurd (row_of_decode hd).1 (h i.mnemonic)

/-- Settles O10: what decodes lies in its instruction's row, and a row's word decodes to that row's instruction. -/
theorem exactlyTheRowsDecode : Obligations.ExactlyTheRowsDecode :=
  ⟨fun _ _ hd => (row_of_decode hd).1, fun w m hrow => ⟨m.instr w, decode_of_row hrow, mnemonic_instr m w⟩,
    fun _ => decode_refused_of_no_row, fun _ _ _ => row_unique⟩

/-! A refused word (rules R172, R193): its step raises the reason, and the reference harness's run stops before it. -/

theorem stepWord_of_refused {w : Word} {r : DecodeReason} (hd : decode w = .error r) (s : State) :
    stepWord w s = .fault (.raised (.decodeNotImplemented r)) := by
  simp only [stepWord, hd, raise]

theorem step_eq_stepWord {w : Word} {s : State} (h : StandsAtPc w s) : step s = stepWord w s := by
  obtain ⟨hin, hpc, hprog⟩ := h
  simp only [step, fetch, hin, progWord, hpc, hprog, ne_eq, not_true, if_false, Option.map_some]

theorem stopsFaulted_of_stepWord {w : Word} {s : State} {e : CoreError} (hw : StandsAtPc w s)
    (h : stepWord w s = .fault (.raised e)) (n : Nat) : StopsFaulted (n + 1) s e s := by
  simp only [StopsFaulted, run, step_eq_stepWord hw, h]

theorem refused_word_stops_run {w : Word} {r : DecodeReason} (hd : decode w = .error r) (s : State) :
    stepWord w s = .fault (.raised (.decodeNotImplemented r)) ∧
      (StandsAtPc w s → StopsFaulted 1 s (.decodeNotImplemented r) s) :=
  ⟨stepWord_of_refused hd s, fun hw => stopsFaulted_of_stepWord hw (stepWord_of_refused hd s) 0⟩

theorem decode_fence_system {w : Word} (h : w.toNat % 128 = 0x0F ∨ w.toNat % 128 = 0x73) :
    decode w = .error .unknownOpcode := by
  refine (compressedAndUnknownOpcodeExactly w).2.2 ⟨by omega, ?_⟩
  rcases h with hop | hop <;> rw [hop] <;> decide

/-- Settles O13: MISC-MEM and SYSTEM are not among the nine opcodes of rule R77. -/
theorem fenceAndSystemWordsRefused : Obligations.FenceAndSystemWordsRefused :=
  fun _ s h => refused_word_stops_run (decode_fence_system h) s

theorem decode_logicalImmediate {w : Word} (hop : w.toNat % 128 = 0x13) (h3 : w.toNat / 2 ^ 12 % 8 ∈ [7, 6, 4]) :
    decode w = .error .unknownFunction := by
  simp only [List.mem_cons, List.not_mem_nil, or_false] at h3
  exact (unknownFunctionExactly w).2 (.inr (.inr (.inr (.inr (.inl ⟨hop, by omega⟩)))))

theorem decode_subword {w : Word} (h : (w.toNat % 128 = 0x03 ∧ w.toNat / 2 ^ 12 % 8 ≠ 2) ∨
    (w.toNat % 128 = 0x23 ∧ w.toNat / 2 ^ 12 % 8 ≠ 2)) : decode w = .error .unknownFunction :=
  (unknownFunctionExactly w).2 (.inr (.inr (h.imp id .inl)))

/-- Settles O14: each of these words is in the list of rule R88. -/
theorem logicalImmediateAndSubwordRefused : Obligations.LogicalImmediateAndSubwordRefused := by
  rintro w s (⟨hop, h3⟩ | hsub)
  · exact refused_word_stops_run (decode_logicalImmediate hop h3) s
  · exact refused_word_stops_run (decode_subword hsub) s

end Sys2Proof.Machine

/-! Proofs of the family `60_exceptions.md`: who can raise what, and what an error leaves. The statements are those of
Obligations.lean. -/

namespace Sys2Proof.Machine

/-! What an instruction can raise. -/

/-- How an instruction ends: it completes, or it is LW or SW and raises the address of its access (rule R169). -/
theorem exec_completes_or_outOfBounds (i : Instr) (s : State) :
    (∃ t, exec i s = .next t) ∨
      ∃ rs1 imm, ((∃ rd, i = .lw rd rs1 imm) ∨ ∃ rs2, i = .sw rs2 rs1 imm) ∧
        exec i s = .fault (.raised (.outOfBoundsMemoryAccess (effAddr rs1 imm s))) := by
  cases i
  case lw rd rs1 imm =>
    by_cases hb : inBounds s (effAddr rs1 imm s)
    · exact .inl ⟨_, execLw_inBounds rd rs1 imm s hb⟩
    · exact .inr ⟨rs1, imm, .inl ⟨rd, rfl⟩, execLw_outOfBounds rd rs1 imm s hb⟩
  case sw rs2 rs1 imm =>
    by_cases hb : inBounds s (effAddr rs1 imm s)
    · exact .inl ⟨_, execSw_inBounds rs2 rs1 imm s hb⟩
    · exact .inr ⟨rs1, imm, .inr ⟨rs2, rfl⟩, execSw_outOfBounds rs2 rs1 imm s hb⟩
  all_goals exact .inl ⟨_, rfl⟩

theorem exec_completes_of_not_memory {i : Instr} (s : State) (hlw : ∀ rd rs1 imm, i ≠ .lw rd rs1 imm)
    (hsw : ∀ rs2 rs1 imm, i ≠ .sw rs2 rs1 imm) : ∃ t, exec i s = .next t := by
  rcases exec_completes_or_outOfBounds i s with hnext | ⟨rs1, imm, ⟨rd, hi⟩ | ⟨rs2, hi⟩, -⟩
  · exact hnext
  · exact absurd hi (hlw rd rs1 imm)
  · exact absurd hi (hsw rs2 rs1 imm)

theorem exec_ne_invalidRegisterIndex (i : Instr) (s : State) (n : Nat) :
    exec i s ≠ .fault (.raised (.invalidRegisterIndex n)) := by
  rcases exec_completes_or_outOfBounds i s with ⟨t, h⟩ | ⟨rs1, imm, -, h⟩ <;> simp [h]

/-! What an accessor call can raise. -/

theorem access_read_outOfRange {n : Nat} (h : ¬ n < 32) (s : State) :
    access (.read n) s = (s, .error (.invalidRegisterIndex n)) := dif_neg h

/-- The accessor rows of the table of rule R169. -/
def HarnessCall.MayRaise (c : HarnessCall) (e : CoreError) : Prop :=
  match c with
  | .read n | .write n _ => 31 < n ∧ e = .invalidRegisterIndex n
  | .loadWord a | .storeWord a _ => e = .outOfBoundsMemoryAccess a
  | .readPC | .writePC _ => False

/-- A call that ends in an error has changed nothing, and its error is one the table allows it (rules R169, R172). -/
theorem access_error_cases {c : HarnessCall} {s : State} {e : CoreError} (h : (access c s).2 = .error e) :
    (access c s).1 = s ∧ c.MayRaise e := by
  cases c with
  | read n =>
    by_cases hn : n < 32
    · rw [access_read hn] at h; cases h
    · rw [access_read_outOfRange hn] at h ⊢; cases h
      exact ⟨rfl, Nat.le_of_not_lt hn, rfl⟩
  | write n v =>
    by_cases hn : n < 32
    · rw [access_write hn] at h; cases h
    · rw [access_write_outOfRange hn] at h ⊢; cases h
      exact ⟨rfl, Nat.le_of_not_lt hn, rfl⟩
  | readPC => cases h
  | writePC v => cases h
  | loadWord a =>
    rw [access_loadWord] at h ⊢
    by_cases hb : inBounds s a
    · rw [memRead_inBounds s a hb] at h; cases h
    · rw [memRead_outOfBounds s a hb] at h; cases h
      exact ⟨rfl, rfl⟩
  | storeWord a v =>
    by_cases hb : inBounds s a
    · rw [access_storeWord_ok a v s _ (memWrite_inBounds s a v hb)] at h; cases h
    · rw [access_storeWord_error a v s _ (memWrite_outOfBounds s a v hb)] at h ⊢; cases h
      exact ⟨rfl, rfl⟩

/-! A run that stops with an error (rules R172, R199). -/

/-- The first turn of a run that stops with an error: its step raises that error, or completes and the rest stops. -/
theorem stopsFaulted_succ_iff (n : Nat) (s t : State) (e : CoreError) :
    StopsFaulted (n + 1) s e t ↔
      (step s = .fault (.raised e) ∧ t = s) ∨ ∃ u, step s = .next u ∧ StopsFaulted n u e t := by
  simp only [StopsFaulted, run]
  rcases step s with u | (e' | _) | r <;> simp [eq_comm]

/-- The state a run reports with its error raises that error again. -/
theorem step_of_stopsFaulted {n : Nat} {s t : State} {e : CoreError} (h : StopsFaulted n s e t) :
    step t = .fault (.raised e) := by
  induction n generalizing s with
  | zero => cases h
  | succ n ih =>
    rcases (stopsFaulted_succ_iff n s t e).1 h with ⟨hs, rfl⟩ | ⟨u, -, hu⟩
    · exact hs
    · exact ih hu

/-! The statements. -/

/-- Settles O46: the outcomes of an instruction, and the accessors' table row by row. -/
theorem whoRaisesWhat : Obligations.WhoRaisesWhat := by
  refine ⟨fun _ s _ hd => stepWord_of_refused hd s, fun _ s => exec_completes_of_not_memory s, fun i s => ?_,
    fun c s e h => ?_⟩
  · exact (exec_completes_or_outOfBounds i s).imp_right fun ⟨_, _, _, hf⟩ => ⟨_, hf⟩
  · have hraise := (access_error_cases h).2
    cases c <;> exact hraise

/-- Settles O47: `run` reports the state before the step that raised, and an accessor's error returns the state. -/
theorem errorsLeaveStateUnchanged : Obligations.ErrorsLeaveStateUnchanged :=
  ⟨fun n _ _ _ hw h => stopsFaulted_of_stepWord hw h n, fun _ _ _ _ => step_of_stopsFaulted,
    fun _ _ _ h => (access_error_cases h).1⟩

/-- Settles O52: the port checks the index against 32, and an instruction raises only the error of its access. -/
theorem accessorsCheckIndex : Obligations.AccessorsCheckIndex := by
  refine ⟨fun n v s hn => ?_, fun n v s hn => ?_, exec_ne_invalidRegisterIndex⟩
  · have hge : ¬ n < 32 := Nat.not_lt_of_le hn
    exact ⟨access_read_outOfRange hge s, access_write_outOfRange hge v s⟩
  · have hlt : n < 32 := Nat.lt_succ_of_le hn
    exact ⟨⟨_, congrArg Prod.snd (access_read hlt s)⟩, congrArg Prod.snd (access_write hlt v s)⟩

end Sys2Proof.Machine

/-! Proofs of the family `70_reset_and_hazards.md` and of the sample words: what a step runs, the reference harness's loop,
and what every run keeps. The statements are those of Obligations.lean. -/

namespace Sys2Proof.Machine

/-! Where a step takes its word from (rules R194, R195, R198). -/

theorem step_of_presented {w : Word} {s : State} (h : s.presented = some w) :
    step s = stepWord w { s with presented := none } := by
  simp only [step, fetch, h]

/-- No word of the program stands at the pc: it is no multiple of 4, or lies past the end (rule R199). -/
theorem progWord_eq_none_iff (s : State) :
    progWord s = none ↔ s.pc.toNat % 4 ≠ 0 ∨ s.prog.length ≤ s.pc.toNat / 4 := by
  unfold progWord
  by_cases hpc : s.pc.toNat % 4 = 0 <;> simp [hpc]

theorem fetch_eq_none_iff (s : State) : fetch s = none ↔ s.presented = none ∧ progWord s = none := by
  unfold fetch
  cases s.presented <;> simp

/-- Settles O48: the input's word is decoded and executed, and so is the program's word when the input is empty. -/
theorem stepExecutesDecodedInstruction : Obligations.StepExecutesDecodedInstruction := by
  intro s w i hd
  refine ⟨fun hin => ?_, fun hin hpc hprog => step_standsAtPc ⟨hin, hpc, hprog⟩ hd⟩
  rw [step_of_presented hin, stepWord, hd]

/-! How a step stops the loop. -/

theorem stepWord_ne_endOfProgram (w : Word) (s : State) : stepWord w s ≠ .fault .endOfProgram := by
  cases hd : decode w with
  | error r => simp [stepWord_of_refused hd]
  | ok i =>
    simp only [stepWord, hd]
    rcases exec_completes_or_outOfBounds i s with ⟨t, h⟩ | ⟨rs1, imm, -, h⟩ <;> simp [h]

/-- The harness stops with `end_of_program` exactly when it has no word: the core never answers so (rule R199). -/
theorem step_endOfProgram_iff (s : State) : step s = .fault .endOfProgram ↔ fetch s = none := by
  unfold step
  rcases fetch s with _ | ⟨w, t⟩
  · simp
  · simpa using stepWord_ne_endOfProgram w t

/-! A run's verdict, for both ways it can end: it follows completed steps to a state whose step raises the fault. -/

/-- The outcome a run reports when the step taken in `s` ends with a fault (rule R199). -/
def Fault.outcome : Fault → State → RunOutcome
  | .endOfProgram, s => .endOfProgram s
  | .raised e, s => .faulted e s

/-- `s` completes a step to `t`. -/
def StepsTo (s t : State) : Prop := step s = .next t

theorem endsNormally_iff (n : Nat) (s t : State) : EndsNormally n s t ↔ run n s = Fault.endOfProgram.outcome t := Iff.rfl

theorem stopsFaulted_iff (n : Nat) (s t : State) (e : CoreError) :
    StopsFaulted n s e t ↔ run n s = (Fault.raised e).outcome t := Iff.rfl

theorem run_succ_of_stepsTo {s t : State} (h : StepsTo s t) (n : Nat) : run (n + 1) s = run n t := by
  rw [StepsTo] at h
  simp only [run, h]

theorem run_zero_ne_outcome (f : Fault) (s t : State) : run 0 s ≠ f.outcome t := by
  cases f <;> simp [run, Fault.outcome]

/-- The first turn of a run with a verdict: its step raises the fault, or completes and the rest of the run has it. -/
theorem run_succ_eq_outcome_iff (n : Nat) (f : Fault) (s t : State) :
    run (n + 1) s = f.outcome t ↔ (step s = .fault f ∧ t = s) ∨ ∃ u, StepsTo s u ∧ run n u = f.outcome t := by
  simp only [run, StepsTo]
  rcases step s with u | (e | _) | r <;> cases f <;> simp [Fault.outcome, eq_comm]

theorem reaches_of_run_eq_outcome {n : Nat} {f : Fault} {s t : State} (h : run n s = f.outcome t) :
    Relation.ReflTransGen StepsTo s t ∧ step t = .fault f := by
  induction n generalizing s with
  | zero => exact absurd h (run_zero_ne_outcome f s t)
  | succ n ih =>
    rcases (run_succ_eq_outcome_iff n f s t).1 h with ⟨hs, rfl⟩ | ⟨u, hu, hrest⟩
    · exact ⟨.refl, hs⟩
    · obtain ⟨hreach, ht⟩ := ih hrest
      exact ⟨.head hu hreach, ht⟩

/-- More turns do not change a verdict: the run stops at the same turn. -/
theorem run_add_eq_outcome {n : Nat} {f : Fault} {s t : State} (h : run n s = f.outcome t) (k : Nat) :
    run (n + k) s = f.outcome t := by
  induction n generalizing s with
  | zero => exact absurd h (run_zero_ne_outcome f s t)
  | succ n ih =>
    rw [Nat.add_right_comm, run_succ_eq_outcome_iff]
    exact ((run_succ_eq_outcome_iff n f s t).1 h).imp_right fun ⟨u, hu, hrest⟩ => ⟨u, hu, ih hrest⟩

/-! What completed steps keep. -/

theorem StepsTo.cfg_prog {s t : State} (h : StepsTo s t) : t.cfg = s.cfg ∧ t.prog = s.prog := by
  obtain ⟨w, u, i, hf, -, he⟩ := step_next_cases s t h
  obtain ⟨-, ⟨hcfg, hprog, -⟩, -⟩ := onlyNamedRegisterAndStoreChange i u t he
  rcases fetch_some_cases s u w hf with ⟨-, rfl⟩ | ⟨-, -, -, rfl⟩ <;> exact ⟨hcfg, hprog⟩

theorem reaches_keeps_cfg_prog_inv {s t : State} (h : Relation.ReflTransGen StepsTo s t) :
    t.cfg = s.cfg ∧ t.prog = s.prog ∧ (s.Inv → t.Inv) := by
  induction h with
  | refl => exact ⟨rfl, rfl, id⟩
  | tail _ hstep ih =>
    obtain ⟨hcfg, hprog, hinv⟩ := ih
    obtain ⟨hcfg', hprog'⟩ := hstep.cfg_prog
    exact ⟨hcfg'.trans hcfg, hprog'.trans hprog, fun hs => stepKeepsInvariant _ _ (hinv hs) hstep⟩

/-! The statements. -/

/-- Settles O49: a turn is decided by the word at the pc, and a normal end is a state in which the harness has no word. -/
theorem runLoopFollowsHarness : Obligations.RunLoopFollowsHarness := by
  refine ⟨fun n s hin => ⟨fun hno => ?_, fun w hpc hprog => ?_⟩, fun n s t _ h => ?_⟩
  · have hstep : step s = .fault .endOfProgram :=
      (step_endOfProgram_iff s).2 ((fetch_eq_none_iff s).2 ⟨hin, (progWord_eq_none_iff s).2 hno⟩)
    exact (run_succ_eq_outcome_iff n .endOfProgram s s).2 (.inl ⟨hstep, rfl⟩)
  · have hw : StandsAtPc w s := ⟨hin, hpc, hprog⟩
    exact ⟨fun t ht => run_succ_of_stepsTo ((step_eq_stepWord hw).trans ht) n,
      fun e he => stopsFaulted_of_stepWord hw he n⟩
  · have hstep := (reaches_of_run_eq_outcome ((endsNormally_iff n s t).1 h)).2
    exact (progWord_eq_none_iff t).1 ((fetch_eq_none_iff t).1 ((step_endOfProgram_iff t).1 hstep)).2

/-- Settles O50: a verdict's state is reached by completed steps, each of which keeps all three. -/
theorem runKeepsProgramAndInvariant : Obligations.RunKeepsProgramAndInvariant := by
  rintro n s t (h | ⟨e, h⟩)
  · exact reaches_keeps_cfg_prog_inv (reaches_of_run_eq_outcome ((endsNormally_iff n s t).1 h)).1
  · exact reaches_keeps_cfg_prog_inv (reaches_of_run_eq_outcome ((stopsFaulted_iff n s t e).1 h)).1

/-- Settles O51: both verdicts are outcomes of a fault, which more turns do not change. -/
theorem largerBoundKeepsVerdict : Obligations.LargerBoundKeepsVerdict :=
  fun n k s t => ⟨fun h => run_add_eq_outcome ((endsNormally_iff n s t).1 h) k,
    fun e h => run_add_eq_outcome ((stopsFaulted_iff n s t e).1 h) k⟩

/-- Settles O7: each accepted word lies in its row of rule R80, each refused one meets its refusal's condition (rules R77,
R88). -/
theorem sampleWordsDecode : Obligations.SampleWordsDecode :=
  ⟨decode_of_row (m := .addi) rfl, decode_of_row (m := .srai) rfl, decode_of_row (m := .sub) rfl,
    decode_of_row (m := .auipc) rfl, decode_of_row (m := .jal) rfl, decode_of_row (m := .jalr) rfl,
    decode_of_row (m := .bne) rfl, decode_of_row (m := .lw) rfl, decode_of_row (m := .sw) rfl,
    (compressedAndUnknownOpcodeExactly _).1.2 (by decide), (compressedAndUnknownOpcodeExactly _).2.2 (by decide),
    (unknownFunctionExactly _).2 (by decide)⟩

end Sys2Proof.Machine
